-- ==== Sys2Proof/Word.lean ====
section
/-! DEFINITION. The word type of the core: a cell and a register are both eight bits (00_scope.md R7, R8). -/

namespace Sys2Proof

/-- A memory cell, a register value or an instruction cell: an unsigned integer in `0 .. 255` whose bits are numbered
7 (most significant) down to 0 (R8, R21, R32). -/
abbrev Byte := BitVec 8

end Sys2Proof
end

