-- ==== Sys2Proof/Config.lean ====
section
/-! DEFINITION. The implementation parameters of 00_scope.md R7: the fixed sizes, the keys of the Instruction Table, the
four flag states, and the flags after reset, which the spec leaves open. -/

namespace Sys2Proof

/-- The fifteen instructions of the Instruction Table, in the table's order: the domain of the parameter `OPC` (R2, R74). -/
inductive Mnemonic where
  | hlt | ldi | prn | mul | add | sub | div | push | pop | call | ret | cmp | jmp | jeq | jne
deriving DecidableEq, Repr

/-- The table's rows in order (R2). -/
def Mnemonic.all : List Mnemonic :=
  [.hlt, .ldi, .prn, .mul, .add, .sub, .div, .push, .pop, .call, .ret, .cmp, .jmp, .jeq, .jne]

/-- The parameter `OPC`: the opcode value of each instruction (R7, R33, R74). It is an immutable parameter of the engine,
never part of the state. -/
abbrev OpcodeMap := Mnemonic → Byte

/-- The condition-flag state `FL`: no flag set, or exactly one of Equal, Less, Greater (R27). -/
inductive Flags where
  | none | equal | less | greater
deriving DecidableEq, Repr, Inhabited

/-- `MEM_SIZE`, the number of memory cells (R7). -/
abbrev Config.memSize : Nat := 256

/-- `SP_INDEX`, the register that is the stack pointer (R7, R23). -/
abbrev Config.spIndex : Fin 8 := 7

/-- `SP_INIT`, the stack pointer after reset (R7, R37). -/
abbrev Config.spInit : Byte := 255

/-- `FL_RESET`, the flags after reset. The spec leaves it open and says that a model must not assume a value (R7, R37,
R171): a constant without a body, so a proof about it holds for all four values.
DESIGN CHOICE, safe: notes/assumptions/3.md. -/
opaque Config.flReset : Flags

end Sys2Proof
end

