-- ==== Sys2Proof/Syntax.lean ====
section
/-! DEFINITION. The instructions: one constructor per row of spec/opcode_table.json, in its order (R2, R74). -/

namespace Sys2Proof

/-- An instruction with its operand cells as they stand in memory. A register operand is the WHOLE operand cell, `0 .. 255`,
of which `0 .. 7` name a register (30_encoding.md R72); `imm` is the whole immediate cell (R73). -/
inductive Instr where
  /-- HLT: stop the machine (R105). -/
  | hlt
  /-- LDI Ra, imm: load immediate (R120). -/
  | ldi (a imm : Byte)
  /-- PRN Ra: deliver a register to the output sink (R121). -/
  | prn (a : Byte)
  /-- MUL Ra, Rb (R133). -/
  | mul (a b : Byte)
  /-- ADD Ra, Rb (R134). -/
  | add (a b : Byte)
  /-- SUB Ra, Rb (R135). -/
  | sub (a b : Byte)
  /-- DIV Ra, Rb (R136). -/
  | div (a b : Byte)
  /-- PUSH Ra (R151). -/
  | push (a : Byte)
  /-- POP Ra (R152). -/
  | pop (a : Byte)
  /-- CALL Ra (R160). -/
  | call (a : Byte)
  /-- RET (R161). -/
  | ret
  /-- CMP Ra, Rb (R170). -/
  | cmp (a b : Byte)
  /-- JMP Ra (R172). -/
  | jmp (a : Byte)
  /-- JEQ Ra: jump if Equal (R173). -/
  | jeq (a : Byte)
  /-- JNE Ra: jump if not Equal (R174). -/
  | jne (a : Byte)
deriving DecidableEq, Repr

end Sys2Proof
end

