-- ==== Sys2Proof/WellFormed.lean ====
section
/-! DEFINITION. Which instructions name only registers that exist (30_encoding.md R72, R79). -/

namespace Sys2Proof

/-- The operand cells that are register indices, in test order; LDI's immediate is not one (R70, R73). -/
def Instr.registerOperands : Instr → List Byte
  | .hlt => []
  | .ldi a _ => [a]
  | .prn a => [a]
  | .mul a b => [a, b]
  | .add a b => [a, b]
  | .sub a b => [a, b]
  | .div a b => [a, b]
  | .push a => [a]
  | .pop a => [a]
  | .call a => [a]
  | .ret => []
  | .cmp a b => [a, b]
  | .jmp a => [a]
  | .jeq a => [a]
  | .jne a => [a]

/-- Does this operand cell name one of `x[0] .. x[7]`? (R72) -/
def namesRegister (i : Byte) : Bool := decide (i.toNat < 8)

/-- Every register operand names a register. An instruction that is not well formed is still decoded and executed: it
raises AddressOutOfRange when, and only when, it accesses the register (R79; notes/assumptions/6.md). -/
def Instr.wellFormed (i : Instr) : Bool := i.registerOperands.all namesRegister

end Sys2Proof
end

