-- ==== Sys2Proof/Decode.lean ====
section
/-! DEFINITION. Decoder and encoder: the opcode map, the three-cell slot, the lookup by whole opcode cell and the
instruction's own cells (30_encoding.md). -/

namespace Sys2Proof

/-- The default of the parameter `OPC` (R74). -/
def defaultOpc : OpcodeMap
  | .hlt => 0b00000001
  | .ldi => 0b10000010
  | .prn => 0b01000111
  | .mul => 0b10100010
  | .add => 0b10100000
  | .sub => 0b10100001
  | .div => 0b10100011
  | .push => 0b01000101
  | .pop => 0b01000110
  | .call => 0b01010000
  | .ret => 0b00010001
  | .cmp => 0b10100111
  | .jmp => 0b01010100
  | .jeq => 0b01010101
  | .jne => 0b01010110

/-- The three cells every fetch reads: the opcode cell and the two operand cells (R71). -/
structure Slot where
  ir : Byte
  a : Byte
  b : Byte
deriving DecidableEq, Repr

/-- Why a slot holds no instruction. -/
inductive DecodeError where
  /-- The opcode cell is none of the fifteen values of `OPC` (R78). The engine turns it into the fault UnknownOpcode. -/
  | unknownOpcode (opcode : Byte)
deriving DecidableEq, Repr

/-- Why a list of cells does not begin with an instruction (a disassembler's view, R81). -/
inductive BytesError where
  /-- The list ends before the instruction does. -/
  | truncated
  /-- The first cell is none of the fifteen values of `OPC` (R78). -/
  | unknownOpcode (opcode : Byte)
deriving DecidableEq, Repr

/-- The Instruction Table's lookup: the whole opcode cell is compared with each of the fifteen values (R75, R102). -/
def lookupOpcode (opc : OpcodeMap) (ir : Byte) : Option Mnemonic :=
  Mnemonic.all.find? fun m => opc m == ir

/-- The instruction of a table row with the operand cells it uses; the other cells of the slot are ignored (R70, R77). -/
def Mnemonic.build (m : Mnemonic) (a b : Byte) : Instr :=
  match m with
  | .hlt => .hlt
  | .ldi => .ldi a b
  | .prn => .prn a
  | .mul => .mul a b
  | .add => .add a b
  | .sub => .sub a b
  | .div => .div a b
  | .push => .push a
  | .pop => .pop a
  | .call => .call a
  | .ret => .ret
  | .cmp => .cmp a b
  | .jmp => .jmp a
  | .jeq => .jeq a
  | .jne => .jne a

/-- How many cells an instruction occupies (R70, R74, R81). -/
def Mnemonic.cells : Mnemonic → Nat
  | .hlt => 1
  | .ldi => 3
  | .prn => 2
  | .mul => 3
  | .add => 3
  | .sub => 3
  | .div => 3
  | .push => 2
  | .pop => 2
  | .call => 2
  | .ret => 1
  | .cmp => 3
  | .jmp => 2
  | .jeq => 2
  | .jne => 2

/-- Decode a fetched slot: the opcode cell alone chooses the instruction (R75, R102). -/
def decodeSlot (opc : OpcodeMap) (slot : Slot) : Except DecodeError Instr :=
  match lookupOpcode opc slot.ir with
  | some m => .ok (m.build slot.a slot.b)
  | none => .error (.unknownOpcode slot.ir)

/-- Decode the instruction a list of cells begins with and return the cells after it: a disassembler's step (R81). -/
def decodeBytes (opc : OpcodeMap) : List Byte → Except BytesError (Instr × List Byte)
  | [] => .error .truncated
  | ir :: rest =>
    match lookupOpcode opc ir with
    | none => .error (.unknownOpcode ir)
    | some m =>
      if rest.length + 1 < m.cells then .error .truncated
      else .ok (m.build (rest.getD 0 0) (rest.getD 1 0), rest.drop (m.cells - 1))

/-- The table row of an instruction (R74). -/
def Instr.mnemonic : Instr → Mnemonic
  | .hlt => .hlt
  | .ldi _ _ => .ldi
  | .prn _ => .prn
  | .mul _ _ => .mul
  | .add _ _ => .add
  | .sub _ _ => .sub
  | .div _ _ => .div
  | .push _ => .push
  | .pop _ => .pop
  | .call _ => .call
  | .ret => .ret
  | .cmp _ _ => .cmp
  | .jmp _ => .jmp
  | .jeq _ => .jeq
  | .jne _ => .jne

/-- The operand cells of an instruction in address order (R70). -/
def Instr.operands : Instr → List Byte
  | .hlt => []
  | .ldi a imm => [a, imm]
  | .prn a => [a]
  | .mul a b => [a, b]
  | .add a b => [a, b]
  | .sub a b => [a, b]
  | .div a b => [a, b]
  | .push a => [a]
  | .pop a => [a]
  | .call a => [a]
  | .ret => []
  | .cmp a b => [a, b]
  | .jmp a => [a]
  | .jeq a => [a]
  | .jne a => [a]

/-- How many cells the instruction occupies (R81). -/
def Instr.cells (i : Instr) : Nat := i.mnemonic.cells

/-- The cells of an instruction: its opcode, then its operands (R70, R74). -/
def encode (opc : OpcodeMap) (i : Instr) : List Byte := opc i.mnemonic :: i.operands

/-- The slot laid out in the number `w` as spec/opcode_table.json numbers bits: cell 0 is bits 7..0, cell 1 is bits 15..8,
cell 2 is bits 23..16; bits at `nbits` and above are 0. -/
def tableSlot (nbits w : Nat) : Slot :=
  { ir := BitVec.ofNat 8 (w % 2 ^ nbits)
    a := BitVec.ofNat 8 (w % 2 ^ nbits / 256)
    b := BitVec.ofNat 8 (w % 2 ^ nbits / 65536) }

/-- The instruction the decoder reads from a word of the opcode table, under the default `OPC`. -/
def decodeTableWord (nbits w : Nat) : Option Instr :=
  match decodeSlot defaultOpc (tableSlot nbits w) with
  | .ok i => some i
  | .error _ => none

end Sys2Proof
end

