-- ==== Sys2Proof/Machine/State.lean ====
section
/-! DEFINITION. The state of the core (10_state.md R20), its fault kinds (60_exceptions.md R200) and the state after reset
(10_state.md R37). -/

namespace Sys2Proof.Machine

/-- The memory array: a list of (address, cell) pairs in one canonical form, `Memory.wf` (R32, R50). -/
abbrev Memory := List Host.Cell

/-- The operation tag the decoder hands to the ALU (42_alu_arithmetic.md R130, R131). -/
inductive AluTag where
  | mul | add | sub | div | cmp
  /-- Any other tag: R130's last arm. The decoder never produces one (R131; notes/assumptions/9.md). -/
  | unrecognized (tag : Nat)
deriving DecidableEq, Repr

/-- The reason of a ProgramLoadError. At the core's boundary there is one; the unreadable source and the malformed token
arise inside the Loader, which is outside the hardware (R207). -/
inductive LoadError where
  | imageTooLarge
deriving DecidableEq, Repr

/-- The five fault kinds with their payloads (R200). It is the type of the state's `FAULT` and the fault type of the host's
interface. Every fault is EXACT, neither safe nor unsafe: the spec describes the entry of each, and the model takes it as a
next state (`State.enterFault`), so no step answers the host's outcome `fault` (notes/assumptions/1.md). -/
inductive Fault where
  /-- Raised by the decode of a step whose opcode cell is none of the fifteen values of `OPC` (R203). Exact. -/
  | unknownOpcode (opcode : Byte) (pc : Nat)
  /-- Raised by the ALU on a tag that is none of its five; unreachable from any program (R131, R204). Exact. -/
  | unsupportedAluOperation (op : AluTag)
  /-- Raised by DIV when both indices are valid and the divisor register holds 0 (R205). Exact. -/
  | divisionByZero
  /-- Raised by a fetch beyond the last cell, by an access to a register index of 8 or more, and by a stack-pointer
  adjustment that leaves `0 .. 255` (R206). The payload is the unwrapped integer. Exact. -/
  | addressOutOfRange (address : Int)
  /-- The failure result of the host operation `load`; never raised by a step, never in `FAULT` (R207). Exact. -/
  | programLoadError (reason : LoadError)
deriving DecidableEq, Repr

/-- Why a step has no meaning. -/
inductive Refusal where
  /-- Raised by an arm of `exec` whose instruction has no meaning yet. Safe. No arm of this model raises it. -/
  | notModelled (mnemonic : String)
deriving DecidableEq, Repr

/-- The complete state of the core (R20). -/
structure State where
  /-- Memory: 256 cells (R32). -/
  mem : Memory
  /-- The register file; `x[7]` is the stack pointer (R21, R23). -/
  x : Vector Byte 8
  /-- The program counter, an integer `0 .. 256` (R25; the bound is `State.Inv`, notes/assumptions/5.md). -/
  pc : Nat
  /-- The condition-flag state (R27). -/
  fl : Flags
  /-- The run loop continues while true (R29). -/
  running : Bool
  /-- Why the core stopped, if by a fault (R30). -/
  fault : Option Fault
  /-- Everything PRN has emitted, oldest first (R31). -/
  out : List Byte
deriving DecidableEq, Repr

/-- The state after `reset` for a given `FL_RESET` (R37, R230). -/
def State.resetWith (fl : Flags) : State :=
  { mem := []
    x := #v[0, 0, 0, 0, 0, 0, 0, Config.spInit]
    pc := 0
    fl := fl
    running := true
    fault := none
    out := [] }

/-- The state after `reset`, the flags at the open parameter `FL_RESET` (R37; notes/assumptions/3.md). -/
def State.reset : State := State.resetWith Config.flReset

end Sys2Proof.Machine
end

