-- ==== Sys2Proof/Machine/Ops.lean ====
section
/-! DEFINITION. The named operations over memory, registers and control state (00_scope.md R10 to R13), taking a fault
(60_exceptions.md R201), and how a handler's result becomes the state after the step (40_engine_cycle.md R100). -/

namespace Sys2Proof.Machine

/-- The outcome of a handler or a step in the host's terms. -/
abbrev Result := Host.Outcome State Fault Refusal

/-- What a cell that the list does not name reads as: memory is zeroed at reset, and a read returns 0 if nothing was
written since (R37, R55). -/
def Memory.unlisted : Byte := 0

/-- The value of one cell (R55). -/
def Memory.read : Memory → Nat → Byte
  | [], _ => Memory.unlisted
  | (k, v) :: rest, addr => if k = addr then v else Memory.read rest addr

/-- Set one cell, keeping the canonical form: a cell that holds what an unlisted cell reads as is not listed (R11, R55). -/
def Memory.write : Memory → Nat → Byte → Memory
  | [], addr, v => if v = Memory.unlisted then [] else [(addr, v)]
  | (k, w) :: rest, addr, v =>
    if addr < k then
      if v = Memory.unlisted then (k, w) :: rest else (addr, v) :: (k, w) :: rest
    else if addr = k then
      if v = Memory.unlisted then rest else (addr, v) :: rest
    else (k, w) :: Memory.write rest addr v

/-- The canonical form: addresses strictly rising, every address one of the 256, no cell listed at the value an unlisted
one reads as (R50). -/
abbrev Memory.wf (m : Memory) : Prop :=
  m.Pairwise (fun c d => c.1 < d.1) ∧ ∀ c ∈ m, c.1 < Config.memSize ∧ c.2 ≠ Memory.unlisted

/-- `x[r]` (R10). -/
def State.getReg (s : State) (r : Fin 8) : Byte := s.x[r.val]

/-- `x[r] <- v` (R10). -/
def State.setReg (s : State) (r : Fin 8) (v : Byte) : State := { s with x := s.x.set r.val v }

/-- `SP`, another name for `x[7]` (R23). -/
def State.sp (s : State) : Byte := s.getReg Config.spIndex

/-- `pc <- t` (R13). -/
def State.setPc (s : State) (t : Nat) : State := { s with pc := t }

/-- `FL <- f` (R13). -/
def State.setFlags (s : State) (f : Flags) : State := { s with fl := f }

/-- The memory array replaced. -/
def State.setMem (s : State) (m : Memory) : State := { s with mem := m }

/-- `Out(v)`: append to the output sequence (R13, R31). -/
def State.emit (s : State) (v : Byte) : State := { s with out := s.out ++ [v] }

/-- `Running <- false` (R29). -/
def State.halt (s : State) : State := { s with running := false }

/-- Taking a fault, the one operation for every fault: nothing but `Running` and `FAULT` changes, and `pc` keeps the address
of the faulting instruction (R12, R201, R202). There is no saved pc, no vector and no handler, and no instruction returns
from a fault (R201, R210). -/
def State.enterFault (s : State) (k : Fault) : State := { s with running := false, fault := some k }

/-- `MemRead(addr, 1)` (R11). -/
def State.memRead (s : State) (addr : Int) : Except Fault Byte :=
  if addr < 0 ∨ (Config.memSize : Int) ≤ addr then .error (.addressOutOfRange addr)
  else .ok (s.mem.read addr.toNat)

/-- `MemWrite(addr, 1, v)` (R11). -/
def State.memWrite (s : State) (addr : Int) (v : Byte) : Except Fault State :=
  if addr < 0 ∨ (Config.memSize : Int) ≤ addr then .error (.addressOutOfRange addr)
  else .ok (s.setMem (s.mem.write addr.toNat v))

/-- The stack-pointer range law: an adjusted stack pointer outside `0 .. 255` is a fault that carries the unwrapped
integer, never a wrap (43_stack.md R154). -/
def adjustSp (n : Int) : Except Fault Byte :=
  if n < 0 ∨ (Config.memSize : Int) ≤ n then .error (.addressOutOfRange n)
  else .ok (BitVec.ofInt 8 n)

/-- The cell PUSH and CALL store to: `SP - 1`, or the stack-overflow fault (R150, R154). -/
def State.pushSlot (s : State) : Except Fault Byte := adjustSp ((s.sp.toNat : Int) - 1)

/-- What a handler returns to the engine: the state with the handler's own writes, and the pair
(pc_advance, still_running) (R100). -/
structure Handled where
  state : State
  advance : Nat
  still : Bool
deriving DecidableEq, Repr

/-- The state after a step whose handler, run in `s`, gave this result: a raised fault discards every write of the handler
(R12); otherwise `Running <- still`, and if still running `pc` is advanced (R100, R103). The advance is not reduced
modulo 256 (R103). A handler runs only while `Running` is true (R100), so a handler that keeps the machine running leaves
the flag as it is (notes/assumptions/10.md). -/
def conclude (s : State) : Except Fault Handled → State
  | .error k => s.enterFault k
  | .ok h => if h.still then h.state.setPc (h.state.pc + h.advance) else h.state.halt

/-- The outcome of an instruction: always a next state, the state a fault leaves being one (notes/assumptions/1.md). -/
def settle (s : State) (r : Except Fault Handled) : Result := .next (conclude s r)

end Sys2Proof.Machine
end

