-- ==== Sys2Proof/Machine/Flags.lean ====
section
/-! DEFINITION. The condition flags: what CMP computes and what JEQ and JNE test (45_compare_jump.md R170, R171). -/

namespace Sys2Proof.Machine

/-- The flag state CMP sets: the comparison of two unsigned values (R130, R170). -/
def compareFlags (va vb : Byte) : Flags :=
  if va.toNat = vb.toNat then .equal
  else if va.toNat < vb.toNat then .less
  else .greater

/-- The single condition `FL = E` that a program can test (R171). -/
def flagsEqual (f : Flags) : Bool := decide (f = .equal)

end Sys2Proof.Machine
end

