-- ==== Sys2Proof/Machine/Operands.lean ====
section
/-! DEFINITION. The operand forms: a register index that is a whole cell, and an immediate that is a whole cell
(30_encoding.md R72, R73). -/

namespace Sys2Proof.Machine

/-- `RegIndex(i)` and the index it lets through: no bit of the cell is masked, 8 and above raise AddressOutOfRange
(R10, R72, R79). -/
def regIndex (i : Byte) : Except Fault (Fin 8) :=
  if h : i.toNat < 8 then .ok ⟨i.toNat, h⟩ else .error (.addressOutOfRange i.toNat)

/-- The immediate operand: the cell as it is, neither extended nor scaled (R73). -/
def immediate (cell : Byte) : Byte := cell

end Sys2Proof.Machine
end

