-- ==== Sys2Proof/Machine/Alu.lean ====
section
/-! DEFINITION. The ALU block, a pure function of an operation tag and two values, and the handler shape shared by the five
instructions that use it (42_alu_arithmetic.md R130 to R132). -/

namespace Sys2Proof.Machine

/-- What the ALU gives: an eight-bit result or a flag update (R130). -/
inductive AluOutput where
  | result (v : Byte)
  | flags (f : Flags)
deriving DecidableEq, Repr

/-- The integer `n` reduced modulo 256, the masking after every ALU write (R9, R132). -/
def narrow (n : Int) : Byte := BitVec.ofInt 8 n

/-- The ALU (R130). Operands are taken as unsigned integers, the operation is exact, the result is narrowed (R9, R132). -/
def alu (op : AluTag) (va vb : Byte) : Except Fault AluOutput :=
  match op with
  | .mul => .ok (.result (narrow ((va.toNat : Int) * vb.toNat)))
  | .add => .ok (.result (narrow ((va.toNat : Int) + vb.toNat)))
  | .sub => .ok (.result (narrow ((va.toNat : Int) - vb.toNat)))
  | .div =>
    if vb.toNat = 0 then .error .divisionByZero
    else .ok (.result (narrow ((va.toNat : Int) / vb.toNat)))
  | .cmp => .ok (.flags (compareFlags va vb))
  | .unrecognized tag => .error (.unsupportedAluOperation (.unrecognized tag))

/-- The write after the ALU: a result goes to the destination register, a flag update to `FL` (R130). -/
def State.writeBack (s : State) (dst : Fin 8) : AluOutput → State
  | .result v => s.setReg dst v
  | .flags f => s.setFlags f

/-- The handler of an ALU instruction: index `a`, index `b`, both registers read, the ALU, the write, an advance of 3
(R133 to R136, R170). -/
def aluHandler (op : AluTag) (a b : Byte) (s : State) : Except Fault Handled := do
  let ra ← regIndex a
  let rb ← regIndex b
  let out ← alu op (s.getReg ra) (s.getReg rb)
  return { state := s.writeBack ra out, advance := 3, still := true }

end Sys2Proof.Machine
end

