-- ==== Sys2Proof/Machine/Arithmetic.lean ====
section
/-! DEFINITION. MUL, ADD, SUB and DIV (42_alu_arithmetic.md R133 to R136): each the ALU handler with its own tag. -/

namespace Sys2Proof.Machine

/-- MUL Ra, Rb (R133). -/
def execMul (a b : Byte) (s : State) : Result := settle s (aluHandler .mul a b s)

/-- ADD Ra, Rb (R134). -/
def execAdd (a b : Byte) (s : State) : Result := settle s (aluHandler .add a b s)

/-- SUB Ra, Rb (R135). -/
def execSub (a b : Byte) (s : State) : Result := settle s (aluHandler .sub a b s)

/-- DIV Ra, Rb; a zero divisor raises DivisionByZero after both indices are tested (R136). -/
def execDiv (a b : Byte) (s : State) : Result := settle s (aluHandler .div a b s)

end Sys2Proof.Machine
end

