-- ==== Sys2Proof/Machine/CallReturn.lean ====
section
/-! DEFINITION. CALL and RET (44_call_return.md), on the same stack as PUSH and POP (R162). -/

namespace Sys2Proof.Machine

/-- The return address as a cell. A CALL that the engine executes has `pc + 2 ≤ 255` (R38(f), R160); only a direct use of
the meaning with `pc ≥ 254` would see the reduction (notes/assumptions/11.md). -/
def State.returnAddress (s : State) : Byte := BitVec.ofNat 8 (s.pc + 2)

/-- CALL Ra (R160). The target register is read after SP was written, so `CALL R7` jumps to the decremented SP (R163). -/
def execCall (a : Byte) (s : State) : Result :=
  settle s do
    let n ← s.pushSlot
    let ra ← regIndex a
    let s₁ := s.setReg Config.spIndex n
    let s₂ ← s₁.memWrite n.toNat s.returnAddress
    return { state := s₂.setPc (s₂.getReg ra).toNat, advance := 0, still := true }

/-- RET (R161). -/
def execRet (s : State) : Result :=
  settle s do
    let t ← s.memRead s.sp.toNat
    let n ← adjustSp ((s.sp.toNat : Int) + 1)
    return { state := (s.setPc t.toNat).setReg Config.spIndex n, advance := 0, still := true }

end Sys2Proof.Machine
end

