-- ==== Sys2Proof/Machine/CompareJump.lean ====
section
/-! DEFINITION. CMP, JMP, JEQ and JNE (45_compare_jump.md). Transfers are absolute and register-indirect; the target is not
checked by the transfer (R175). -/

namespace Sys2Proof.Machine

/-- CMP Ra, Rb (R170). -/
def execCmp (a b : Byte) (s : State) : Result := settle s (aluHandler .cmp a b s)

/-- The handler of a transfer to the address in a register: index test, then `pc <- x[a]` (R172, R175). -/
def jumpHandler (a : Byte) (s : State) : Except Fault Handled := do
  let ra ← regIndex a
  return { state := s.setPc (s.getReg ra).toNat, advance := 0, still := true }

/-- The handler of a conditional transfer. Not taken, the register is not accessed and its index not tested (R79, R173,
R174). -/
def branchHandler (taken : Bool) (a : Byte) (s : State) : Except Fault Handled :=
  if taken then jumpHandler a s else .ok { state := s, advance := 2, still := true }

/-- JMP Ra (R172). -/
def execJmp (a : Byte) (s : State) : Result := settle s (jumpHandler a s)

/-- JEQ Ra (R173). -/
def execJeq (a : Byte) (s : State) : Result := settle s (branchHandler (flagsEqual s.fl) a s)

/-- JNE Ra: the negation of Equal, so taken with no flag set (R174). -/
def execJne (a : Byte) (s : State) : Result := settle s (branchHandler (!flagsEqual s.fl) a s)

end Sys2Proof.Machine
end

