-- ==== Sys2Proof/Machine/Halt.lean ====
section
/-! DEFINITION. HLT, the instruction of the engine itself (40_engine_cycle.md R105). -/

namespace Sys2Proof.Machine

/-- HLT: nothing changes but `Running`; `pc` keeps the address of the HLT (R105). -/
def execHlt (s : State) : Result :=
  settle s (.ok { state := s, advance := 0, still := false })

end Sys2Proof.Machine
end

