-- ==== Sys2Proof/Machine/LoadPrint.lean ====
section
/-! DEFINITION. LDI and PRN (41_load_print.md). -/

namespace Sys2Proof.Machine

/-- LDI Ra, imm (R120). -/
def execLdi (a imm : Byte) (s : State) : Result :=
  settle s do
    let ra ← regIndex a
    return { state := s.setReg ra (immediate imm), advance := 3, still := true }

/-- PRN Ra: the register's value is appended to the output sequence; the delivery cannot block or fail (R121). -/
def execPrn (a : Byte) (s : State) : Result :=
  settle s do
    let ra ← regIndex a
    return { state := s.emit (s.getReg ra), advance := 2, still := true }

end Sys2Proof.Machine
end

