-- ==== Sys2Proof/Machine/Stack.lean ====
section
/-! DEFINITION. PUSH and POP (43_stack.md). The stack descends: a push decrements SP and then writes, a pop reads and then
increments SP (R150). -/

namespace Sys2Proof.Machine

/-- PUSH Ra (R151). The operand register is read after SP was written, so `PUSH R7` stores the decremented SP (R153). -/
def execPush (a : Byte) (s : State) : Result :=
  settle s do
    let n ← s.pushSlot
    let ra ← regIndex a
    let s₁ := s.setReg Config.spIndex n
    let s₂ ← s₁.memWrite n.toNat (s₁.getReg ra)
    return { state := s₂, advance := 2, still := true }

/-- POP Ra (R152). The increment applies to SP as it stands after the operand register was loaded, so `POP R7` leaves the
loaded value plus one, and the range test is on that (R153). -/
def execPop (a : Byte) (s : State) : Result :=
  settle s do
    let ra ← regIndex a
    let v ← s.memRead s.sp.toNat
    let base := if ra = Config.spIndex then v else s.sp
    let n ← adjustSp ((base.toNat : Int) + 1)
    return { state := (s.setReg ra v).setReg Config.spIndex n, advance := 2, still := true }

end Sys2Proof.Machine
end

