-- ==== Sys2Proof/Machine/Engine.lean ====
section
/-! DEFINITION. The fetch-decode-execute pass (40_engine_cycle.md R100 to R103), for any Instruction Table. -/

namespace Sys2Proof.Machine

/-- The three fetch reads in address order; the first that is out of range is the fault, whatever the instruction (R101). -/
def State.fetch (s : State) : Except Fault Slot := do
  let ir ← s.memRead s.pc
  let a ← s.memRead (s.pc + 1)
  let b ← s.memRead (s.pc + 2)
  return { ir := ir, a := a, b := b }

/-- One step under the Instruction Table `opc` (R33, R100): fetch, look up, run the handler. A stopped core takes no step:
the operation is then a no-op that leaves the state it reports (R211, R234; notes/assumptions/2.md). -/
def engineStep (opc : OpcodeMap) (s : State) : Result :=
  if s.running then
    match s.fetch with
    | .error k => .next (s.enterFault k)
    | .ok slot =>
      match decodeSlot opc slot with
      | .error (.unknownOpcode opcode) => .next (s.enterFault (.unknownOpcode opcode s.pc))
      | .ok i => exec i s
  else .next s

/-- Store a slot's three cells where the next fetch reads them; a cell beyond the last address does not exist and is not
stored. -/
def State.placeSlot (s : State) (slot : Slot) : State :=
  let put (m : Memory) (addr : Nat) (v : Byte) : Memory :=
    if addr < Config.memSize then m.write addr v else m
  s.setMem (put (put (put s.mem s.pc slot.ir) (s.pc + 1) slot.a) (s.pc + 2) slot.b)

end Sys2Proof.Machine
end

