-- ==== Sys2Proof/Machine/Step.lean ====
section
/-! DEFINITION. One step of the core under the default Instruction Table (40_engine_cycle.md R100; 30_encoding.md R74). -/

namespace Sys2Proof.Machine

/-- One step (R100), the Instruction Table at its default (R74; notes/assumptions/4.md). -/
def step (s : State) : Host.Outcome State Fault Refusal := engineStep defaultOpc s

/-- The state with a word of the opcode table stored where the next fetch reads it (notes/assumptions/7.md). -/
def State.withFetchWord (s : State) (nbits w : Nat) : State := s.placeSlot (tableSlot nbits w)

end Sys2Proof.Machine
end

