-- ==== Sys2Proof/Machine/HostOps.lean ====
section
/-! DEFINITION. The host operations at transaction level: reset, load, step, run, trace and the status
(10_state.md R36; 70_reset_and_hazards.md R230 to R235). Each is atomic and serialized with steps (R241). -/

namespace Sys2Proof.Machine

/-- `reset`, applicable in any state; `FL_RESET` is chosen anew at each reset (R230, U1; notes/assumptions/3.md). -/
def hostReset (flReset : Flags) (_ : State) : State := State.resetWith flReset

/-- The image's cells written to consecutive addresses from `base` on (R232). -/
def loadCells (m : Memory) (base : Nat) : List Byte → Memory
  | [] => m
  | v :: rest => loadCells (m.write base v) (base + 1) rest

/-- `load(image)`: refused whole if the image has more cells than memory, otherwise written from address 0; only memory
changes (R232, R207). -/
def hostLoad (image : List Byte) (s : State) : Except Fault State :=
  if Config.memSize < image.length then .error (.programLoadError .imageTooLarge)
  else .ok (s.setMem (loadCells s.mem 0 image))

/-- What `step` and `run` return to the host (R233, R234). -/
inductive Report where
  | next
  | halted
  | fault (k : Fault)
deriving DecidableEq, Repr

/-- The status of the core as the host reads it from `Running` and `FAULT` (R30, R36). -/
def State.report (s : State) : Report :=
  if s.running then .next
  else match s.fault with
    | none => .halted
    | some k => .fault k

/-- The fault code on the status port, 0 for none (R200). -/
def faultCode : Option Fault → Nat
  | none => 0
  | some (.unknownOpcode _ _) => 1
  | some (.unsupportedAluOperation _) => 2
  | some .divisionByZero => 3
  | some (.addressOutOfRange _) => 4
  | some (.programLoadError _) => 5

/-- The operation `step`: one step, and the report of the state it leaves (R234). On a stopped core nothing changes and the
stopped state is reported. -/
def hostStep (s : State) : Host.Outcome (Report × State) Fault Refusal :=
  match step s with
  | .next t => .next (t.report, t)
  | .fault k => .fault k
  | .refused r => .refused r

/-- The operation `run` under fuel: step while `Running`, then report; `Report.next` says that the fuel ran out with the
core still running (R104, R233; notes/assumptions/8.md). -/
def hostRun : Nat → State → Host.Outcome (Report × State) Fault Refusal
  | 0, s => .next (s.report, s)
  | fuel + 1, s =>
    if s.running then
      match step s with
      | .next t => hostRun fuel t
      | .fault k => .fault k
      | .refused r => .refused r
    else .next (s.report, s)

/-- What `trace` shows: `pc`, the next three cells with a cell beyond the last address absent, and all registers (R235). -/
structure TraceView where
  pc : Nat
  cell0 : Option Byte
  cell1 : Option Byte
  cell2 : Option Byte
  regs : Vector Byte 8
deriving DecidableEq, Repr

/-- A cell as `trace` shows it: absent beyond the last address, never a fault (R235). -/
def State.traceCell (s : State) (addr : Nat) : Option Byte :=
  if addr < Config.memSize then some (s.mem.read addr) else none

/-- `trace`: purely observational, so a function of the state that returns no state (R235, R215). -/
def State.trace (s : State) : TraceView :=
  { pc := s.pc
    cell0 := s.traceCell s.pc
    cell1 := s.traceCell (s.pc + 1)
    cell2 := s.traceCell (s.pc + 2)
    regs := s.x }

end Sys2Proof.Machine
end

