-- ==== Sys2Proof/Safety.lean ====
section
/-! DEFINITION. The terms claims use: which faults a step can leave, the machine's invariant, the stopped states, and the
states reachable from reset (10_state.md R38). -/

namespace Sys2Proof.Machine

/-- Is this fault one a step can have left in `FAULT`? UnknownOpcode was fetched from a complete slot (R101, R203); an
out-of-range payload is -1, 256 or a register index 8 to 255 (R206); an unsupported ALU operation and a load error never
stop a running core (R30, R204, R207). -/
def Fault.leftByStep : Fault → Bool
  | .unknownOpcode _ pc => decide (pc ≤ 253)
  | .unsupportedAluOperation _ => false
  | .divisionByZero => true
  | .addressOutOfRange n => decide (n = -1 ∨ (8 ≤ n ∧ n ≤ 256))
  | .programLoadError _ => false

/-- The invariant: memory in canonical form, `pc` in `0 .. 256` (R38(c)), a fault only in a stopped core (R38(e)), and only
a fault that a step leaves. That cells and registers are in `0 .. 255` and that no two flags are set is the state's type
(R38(a), (b), (d)). -/
abbrev State.Inv (s : State) : Prop :=
  s.mem.wf ∧ s.pc ≤ 256 ∧ (s.fault ≠ none → s.running = false) ∧ ∀ k ∈ s.fault, k.leftByStep = true

/-- Stopped by HLT (R30). -/
abbrev State.Halted (s : State) : Prop := s.running = false ∧ s.fault = none

/-- Stopped by a fault (R30). -/
abbrev State.Faulted (s : State) : Prop := s.running = false ∧ s.fault ≠ none

/-- The states reachable from a reset, for every `FL_RESET`, by `load` and `step` (R38); `run` is a sequence of steps
(R234). -/
inductive Reachable : State → Prop where
  | reset (fl : Flags) : Reachable (State.resetWith fl)
  | load {s t : State} (image : List Byte) : Reachable s → hostLoad image s = .ok t → Reachable t
  | step {s t : State} : Reachable s → Machine.step s = .next t → Reachable t

/-- The registers an instruction may read, the "reads" column of R22 (a register operand by its cell's value). -/
def registersRead : Instr → List Nat
  | .hlt => []
  | .ldi _ _ => []
  | .prn a => [a.toNat]
  | .mul a b => [a.toNat, b.toNat]
  | .add a b => [a.toNat, b.toNat]
  | .sub a b => [a.toNat, b.toNat]
  | .div a b => [a.toNat, b.toNat]
  | .push a => [7, a.toNat]
  | .pop _ => [7]
  | .call a => [7, a.toNat]
  | .ret => [7]
  | .cmp a b => [a.toNat, b.toNat]
  | .jmp a => [a.toNat]
  | .jeq a => [a.toNat]
  | .jne a => [a.toNat]

/-- The registers an instruction may write, the "writes" column of R22. -/
def registersWritten : Instr → List Nat
  | .hlt => []
  | .ldi a _ => [a.toNat]
  | .prn _ => []
  | .mul a _ => [a.toNat]
  | .add a _ => [a.toNat]
  | .sub a _ => [a.toNat]
  | .div a _ => [a.toNat]
  | .push _ => [7]
  | .pop a => [a.toNat, 7]
  | .call _ => [7]
  | .ret => [7]
  | .cmp _ _ => []
  | .jmp _ => []
  | .jeq _ => []
  | .jne _ => []

end Sys2Proof.Machine
end

