-- ==== Sys2Proof/Certificates/Slice0/Obligations.lean ====
section
/-! DEFINITION. The statements about the core. Each docstring names the rule of spec/ it formalises. Two forms recur. A next
state is written as a record update, so everything the record does not name is unchanged. A fault is written
`s.enterFault k`, which is `s` with `Running` false and `FAULT` set to `k` and nothing else changed (R12). -/

open Sys2Proof Sys2Proof.Machine

/-! ### Decode and encode -/

/-- R74, R70: words written out from the rows of the opcode map decode to the instruction they stand for. -/
def Obligations.SampleWordsDecode : Prop :=
  decodeTableWord 8 0b00000001 = some .hlt ∧
  decodeTableWord 24 0b000010000000000010000010 = some (.ldi 0 8) ∧
  decodeTableWord 16 0b0000011101000111 = some (.prn 7) ∧
  decodeTableWord 24 0b000000100000000110100010 = some (.mul 1 2) ∧
  decodeTableWord 24 0b000000010000000010100000 = some (.add 0 1) ∧
  decodeTableWord 24 0b000000010000000010100001 = some (.sub 0 1) ∧
  decodeTableWord 24 0b000000010000000010100011 = some (.div 0 1) ∧
  decodeTableWord 16 0b0000000001000101 = some (.push 0) ∧
  decodeTableWord 16 0b1111111101000110 = some (.pop 255) ∧
  decodeTableWord 16 0b0000001001010000 = some (.call 2) ∧
  decodeTableWord 8 0b00010001 = some .ret ∧
  decodeTableWord 24 0b000000010000000010100111 = some (.cmp 0 1) ∧
  decodeTableWord 16 0b0000000101010100 = some (.jmp 1) ∧
  decodeTableWord 16 0b0000001001010101 = some (.jeq 2) ∧
  decodeTableWord 16 0b0000010001010110 = some (.jne 4) ∧
  decodeTableWord 8 0b00000000 = none ∧
  decodeTableWord 8 0b10001111 = none

/-- R70, R74, R81: under every `OPC` with distinct values, the cells of any instruction, whatever follows them, decode to
that instruction, and the cells that follow are left over. -/
def Obligations.DecodeOfEncodeIsInstruction : Prop :=
  ∀ opc : OpcodeMap, (∀ m n, opc m = opc n → m = n) →
    ∀ (i : Instr) (rest : List Byte), decodeBytes opc (encode opc i ++ rest) = .ok (i, rest)

/-- R71, R75, R77: under every `OPC` with distinct values, a fetched slot decodes to an instruction exactly when the slot
begins with that instruction's cells. -/
def Obligations.SlotDecodesIffItBeginsWithEncoding : Prop :=
  ∀ opc : OpcodeMap, (∀ m n, opc m = opc n → m = n) →
    ∀ (slot : Slot) (i : Instr), decodeSlot opc slot = .ok i ↔ encode opc i <+: [slot.ir, slot.a, slot.b]

/-- R78: an opcode cell that is none of the fifteen values is no instruction, whatever the operand cells; 241 of the 256
bytes are such, 0x00 among them under the default `OPC`. -/
def Obligations.IllegalOpcodesAreRejected : Prop :=
  (∀ (opc : OpcodeMap) (slot : Slot),
    decodeSlot opc slot = .error (.unknownOpcode slot.ir) ↔ ∀ m, opc m ≠ slot.ir) ∧
  ((List.range 256).filter fun n => (lookupOpcode defaultOpc (BitVec.ofNat 8 n)).isNone).length = 241 ∧
  lookupOpcode defaultOpc 0x00 = none

/-- R77: the cells of the slot that are not part of the instruction are ignored: operand_a and operand_b of a one-cell
instruction, operand_b of a two-cell one, at any value. -/
def Obligations.UnusedSlotCellsAreIgnored : Prop :=
  ∀ (opc : OpcodeMap) (ir a b : Byte) (i : Instr), decodeSlot opc ⟨ir, a, b⟩ = .ok i →
    (i.cells = 1 → ∀ a' b' : Byte, decodeSlot opc ⟨ir, a', b'⟩ = .ok i) ∧
    (i.cells = 2 → ∀ b' : Byte, decodeSlot opc ⟨ir, a, b'⟩ = .ok i)

/-! ### The engine -/

/-- R100, R102: when a complete slot decodes to an instruction, the step is that instruction's meaning and nothing else is
added around it. -/
def Obligations.StepRunsDecodedInstruction : Prop :=
  ∀ (s : State) (i : Instr), s.running = true → s.pc ≤ 253 →
    decodeSlot defaultOpc ⟨s.mem.read s.pc, s.mem.read (s.pc + 1), s.mem.read (s.pc + 2)⟩ = .ok i →
    step s = exec i s

/-- R101: the fetch reads the three cells at `pc`, `pc + 1`, `pc + 2`; where one of them is beyond the last cell it raises
AddressOutOfRange(256) and the step executes no instruction, whatever the cells hold and whatever `OPC` is. -/
def Obligations.FetchReadsWholeSlotOrFaults : Prop :=
  ∀ s : State,
    (s.pc ≤ 253 → s.fetch = .ok ⟨s.mem.read s.pc, s.mem.read (s.pc + 1), s.mem.read (s.pc + 2)⟩) ∧
    (254 ≤ s.pc → s.pc ≤ 256 → s.fetch = .error (.addressOutOfRange 256) ∧
      (s.running = true → ∀ opc : OpcodeMap, engineStep opc s = .next (s.enterFault (.addressOutOfRange 256))))

/-- R203: a step whose three fetch reads succeed and whose opcode cell is none of the values of `OPC` raises UnknownOpcode
with the opcode and the `pc` it was fetched from. -/
def Obligations.UnknownOpcodeFaults : Prop :=
  ∀ (opc : OpcodeMap) (s : State), s.running = true → s.pc ≤ 253 → (∀ m, opc m ≠ s.mem.read s.pc) →
    engineStep opc s = .next (s.enterFault (.unknownOpcode (s.mem.read s.pc) s.pc))

/-- R208: which fault a step reports when several conditions hold. The fetch precedes the lookup; for PUSH and CALL the
stack-pointer range precedes the register index; for POP the register index precedes the stack-pointer range; for the
two-register instructions index `a` precedes index `b`; for DIV both indices precede the zero divisor. Each clause leaves
the later conditions free. -/
def Obligations.FirstFailingTestIsReported : Prop :=
  (∀ (opc : OpcodeMap) (s : State), s.running = true → 254 ≤ s.pc → s.pc ≤ 256 →
    engineStep opc s = .next (s.enterFault (.addressOutOfRange 256))) ∧
  (∀ (opc : OpcodeMap) (s : State), s.running = true → s.pc ≤ 253 → (∀ m, opc m ≠ s.mem.read s.pc) →
    engineStep opc s = .next (s.enterFault (.unknownOpcode (s.mem.read s.pc) s.pc))) ∧
  (∀ (a : Byte) (s : State), s.sp = 0 →
    exec (.push a) s = .next (s.enterFault (.addressOutOfRange (-1))) ∧
    exec (.call a) s = .next (s.enterFault (.addressOutOfRange (-1)))) ∧
  (∀ (a : Byte) (s : State), 8 ≤ a.toNat →
    exec (.pop a) s = .next (s.enterFault (.addressOutOfRange a.toNat))) ∧
  (∀ (a b : Byte) (s : State), 8 ≤ a.toNat →
    ∀ i ∈ [Instr.mul a b, .add a b, .sub a b, .div a b, .cmp a b],
      exec i s = .next (s.enterFault (.addressOutOfRange a.toNat))) ∧
  (∀ (a b : Byte) (s : State), a.toNat < 8 → 8 ≤ b.toNat →
    exec (.div a b) s = .next (s.enterFault (.addressOutOfRange b.toNat)))

/-- The model's outcome for every state, reachable or not, and every `OPC`: a next state. A fault is taken as a next state
(notes/assumptions/1.md), a stopped core stays (notes/assumptions/2.md), and no instruction is refused. -/
def Obligations.EveryStepAnswersNext : Prop :=
  (∀ (opc : OpcodeMap) (s : State), ∃ t, engineStep opc s = .next t) ∧ ∀ (i : Instr) (s : State), ∃ t, exec i s = .next t

/-- R201, R202, R104: a step that stops a running core changes nothing but `Running` and `FAULT`, so `pc` is the address of
the instruction that stopped it; and the stop is without a fault only if that instruction is HLT in a complete slot. -/
def Obligations.StoppingStepChangesOnlyStatus : Prop :=
  ∀ (opc : OpcodeMap) (s t : State), s.running = true → engineStep opc s = .next t → t.running = false →
    t = { s with running := false, fault := t.fault } ∧
    (t.fault = none → s.pc ≤ 253 ∧ s.mem.read s.pc = opc .hlt)

/-! ### Reset and the invariants -/

/-- R230, R37: what `reset` leaves, in any state and for every `FL_RESET`. -/
def Obligations.ResetLeavesResetValues : Prop :=
  ∀ (fl : Flags) (s : State),
    let t := hostReset fl s
    (∀ addr < 256, t.mem.read addr = 0) ∧ (∀ r : Fin 8, r ≠ 7 → t.getReg r = 0) ∧ t.getReg 7 = 255 ∧ t.pc = 0 ∧
    t.running = true ∧ t.fault = none ∧ t.out = [] ∧ t.fl = fl

/-- The invariant holds at reset, for every `FL_RESET`, and `State.reset` is the reset state at the constant
`Config.flReset`, of which nothing is known (the model's choice for the open parameter: notes/assumptions/3.md). -/
def Obligations.ResetMeetsInvariant : Prop :=
  (∀ fl : Flags, (State.resetWith fl).Inv) ∧ State.reset = State.resetWith Config.flReset ∧ State.reset.Inv

/-- Every step keeps the invariant: memory in canonical form, `pc` at most 256, a fault only in a stopped core, and only a
fault a step can leave (R38, R206). Over all states that meet it, not only reachable ones. -/
def Obligations.StepKeepsInvariant : Prop :=
  ∀ s t : State, s.Inv → step s = .next t → t.Inv

/-- R38, (a) to (f), in every state reachable from reset by `load` and `step`; for (d) with R27: once `FL` is not `none`, no
step and no `load` makes it `none` again. -/
def Obligations.ReachableStatesMeetInvariants : Prop :=
  ∀ s : State, Reachable s →
    s.Inv ∧
    ((∀ addr, (s.mem.read addr).toNat ≤ 255) ∧ ∀ r : Fin 8, (s.getReg r).toNat ≤ 255) ∧
    ((∃ v, s.memRead s.sp.toNat = .ok v) ∧ ∀ n v, s.pushSlot = .ok n → ∃ t, s.memWrite n.toNat v = .ok t) ∧
    (s.pc ≤ 256 ∧ ∀ t, s.running = true → step s = .next t → t.running = true → s.pc ≤ 253) ∧
    (∀ a b t, s.running = true → step s = .next t → t.running = true →
      decodeSlot defaultOpc ⟨s.mem.read s.pc, s.mem.read (s.pc + 1), s.mem.read (s.pc + 2)⟩ = .ok (.cmp a b) →
      t.fl ≠ .none) ∧
    (∀ t, s.fl ≠ .none → step s = .next t → t.fl ≠ .none) ∧
    (∀ image t, s.fl ≠ .none → hostLoad image s = .ok t → t.fl ≠ .none) ∧
    (s.fault ≠ none → s.running = false) ∧
    (∀ t, s.running = true → step s = .next t → t.running = true → s.mem.read s.pc = defaultOpc .call → s.pc + 2 ≤ 255)

/-- R25: `pc` stays in `0 .. 256`; a step that completes an instruction began with `pc ≤ 253`; `pc` becomes 256 only from
253, by a three-cell instruction; at 256 it is not wrapped, the step raises AddressOutOfRange(256). -/
def Obligations.ProgramCounterRange : Prop :=
  ∀ s t : State, s.running = true → s.pc ≤ 256 → step s = .next t →
    t.pc ≤ 256 ∧
    (t.running = true → s.pc ≤ 253) ∧
    (s.pc = 256 → t = s.enterFault (.addressOutOfRange 256)) ∧
    (t.pc = 256 → s.pc ≠ 256 → s.pc = 253 ∧
      ∃ i, decodeSlot defaultOpc ⟨s.mem.read 253, s.mem.read 254, s.mem.read 255⟩ = .ok i ∧ i.cells = 3)

/-! ### HLT, LDI, PRN -/

/-- R105: HLT clears `Running` and changes nothing else; at address 254 or 255 it faults instead; after it the core stays
stopped, which the model's step answers as a next state, the same one (notes/assumptions/2.md). -/
def Obligations.HltStopsTheCore : Prop :=
  encode defaultOpc .hlt = [0x01] ∧
  (∀ s : State, exec .hlt s = .next { s with running := false }) ∧
  (∀ s : State, s.running = true → s.mem.read s.pc = 0x01 →
    (s.pc ≤ 253 → step s = .next { s with running := false }) ∧
    (s.pc = 254 ∨ s.pc = 255 → step s = .next (s.enterFault (.addressOutOfRange 256)))) ∧
  (∀ s : State, step { s with running := false } = .next { s with running := false })

/-- R120. -/
def Obligations.LdiLoadsImmediate : Prop :=
  ∀ (a imm : Byte) (s : State),
    encode defaultOpc (.ldi a imm) = [0x82, a, imm] ∧
    (∀ _ : a.toNat < 8, exec (.ldi a imm) s = .next { s with x := s.x.set a.toNat imm, pc := s.pc + 3 }) ∧
    (8 ≤ a.toNat → exec (.ldi a imm) s = .next (s.enterFault (.addressOutOfRange a.toNat)))

/-- R121. -/
def Obligations.PrnAppendsRegister : Prop :=
  ∀ (a : Byte) (s : State),
    encode defaultOpc (.prn a) = [0x47, a] ∧
    (∀ ha : a.toNat < 8, exec (.prn a) s = .next { s with out := s.out ++ [s.getReg ⟨a.toNat, ha⟩], pc := s.pc + 2 }) ∧
    (8 ≤ a.toNat → exec (.prn a) s = .next (s.enterFault (.addressOutOfRange a.toNat)))

/-! ### The ALU and the arithmetic instructions -/

/-- R130: the ALU is a function of the operation and two values, with these results. The last clause is about R130's "any
other tag", which the model writes `AluTag.unrecognized` (its own choice: notes/assumptions/9.md). -/
def Obligations.AluComputesItsOperations : Prop :=
  ∀ va vb : Byte,
    (∃ v : Byte, v.toNat = (va.toNat * vb.toNat) % 256 ∧ alu .mul va vb = .ok (.result v)) ∧
    (∃ v : Byte, v.toNat = (va.toNat + vb.toNat) % 256 ∧ alu .add va vb = .ok (.result v)) ∧
    (∃ v : Byte, (v.toNat : Int) = ((va.toNat : Int) - vb.toNat) % 256 ∧ alu .sub va vb = .ok (.result v)) ∧
    (vb = 0 → alu .div va vb = .error .divisionByZero) ∧
    (vb ≠ 0 → ∃ v : Byte, v.toNat = va.toNat / vb.toNat ∧ alu .div va vb = .ok (.result v)) ∧
    alu .cmp va vb = .ok (.flags (if va = vb then .equal else if va.toNat < vb.toNat then .less else .greater)) ∧
    ∀ tag, alu (.unrecognized tag) va vb = .error (.unsupportedAluOperation (.unrecognized tag))

/-- R204: UnsupportedAluOperation carries the tag, and no step of any state, under any `OPC`, brings it into `FAULT`. A tag
that is none of the five is the model's `AluTag.unrecognized` (notes/assumptions/9.md). -/
def Obligations.UnsupportedAluOperationIsUnreachable : Prop :=
  (∀ (tag : Nat) (va vb : Byte),
    alu (.unrecognized tag) va vb = .error (.unsupportedAluOperation (.unrecognized tag))) ∧
  ∀ (opc : OpcodeMap) (s t : State) (op : AluTag), s.fault ≠ some (.unsupportedAluOperation op) →
    engineStep opc s = .next t → t.fault ≠ some (.unsupportedAluOperation op)

/-- R133, R132(c). -/
def Obligations.MulWrapsProduct : Prop :=
  ∀ (a b : Byte) (s : State),
    encode defaultOpc (.mul a b) = [0xA2, a, b] ∧
    (∀ (ha : a.toNat < 8) (hb : b.toNat < 8), ∃ v : Byte,
      v.toNat = ((s.getReg ⟨a.toNat, ha⟩).toNat * (s.getReg ⟨b.toNat, hb⟩).toNat) % 256 ∧
      exec (.mul a b) s = .next { s with x := s.x.set a.toNat v, pc := s.pc + 3 }) ∧
    (8 ≤ a.toNat → exec (.mul a b) s = .next (s.enterFault (.addressOutOfRange a.toNat))) ∧
    (a.toNat < 8 → 8 ≤ b.toNat → exec (.mul a b) s = .next (s.enterFault (.addressOutOfRange b.toNat)))

/-- R134, R132(a). -/
def Obligations.AddWrapsSum : Prop :=
  ∀ (a b : Byte) (s : State),
    encode defaultOpc (.add a b) = [0xA0, a, b] ∧
    (∀ (ha : a.toNat < 8) (hb : b.toNat < 8), ∃ v : Byte,
      v.toNat = ((s.getReg ⟨a.toNat, ha⟩).toNat + (s.getReg ⟨b.toNat, hb⟩).toNat) % 256 ∧
      exec (.add a b) s = .next { s with x := s.x.set a.toNat v, pc := s.pc + 3 }) ∧
    (8 ≤ a.toNat → exec (.add a b) s = .next (s.enterFault (.addressOutOfRange a.toNat))) ∧
    (a.toNat < 8 → 8 ≤ b.toNat → exec (.add a b) s = .next (s.enterFault (.addressOutOfRange b.toNat)))

/-- R135, R132(b): a negative difference wraps, for register 7 as for any other. `%` on integers is the least non-negative
residue. -/
def Obligations.SubWrapsDifference : Prop :=
  ∀ (a b : Byte) (s : State),
    encode defaultOpc (.sub a b) = [0xA1, a, b] ∧
    (∀ (ha : a.toNat < 8) (hb : b.toNat < 8), ∃ v : Byte,
      (v.toNat : Int) = (((s.getReg ⟨a.toNat, ha⟩).toNat : Int) - (s.getReg ⟨b.toNat, hb⟩).toNat) % 256 ∧
      exec (.sub a b) s = .next { s with x := s.x.set a.toNat v, pc := s.pc + 3 }) ∧
    (8 ≤ a.toNat → exec (.sub a b) s = .next (s.enterFault (.addressOutOfRange a.toNat))) ∧
    (a.toNat < 8 → 8 ≤ b.toNat → exec (.sub a b) s = .next (s.enterFault (.addressOutOfRange b.toNat)))

/-- R136, R132(d), R205: the unsigned quotient, and DivisionByZero when both indices are valid and the divisor is 0. -/
def Obligations.DivGivesQuotientOrFaults : Prop :=
  ∀ (a b : Byte) (s : State),
    encode defaultOpc (.div a b) = [0xA3, a, b] ∧
    (∀ (ha : a.toNat < 8) (hb : b.toNat < 8),
      (s.getReg ⟨b.toNat, hb⟩ ≠ 0 → ∃ v : Byte,
        v.toNat = (s.getReg ⟨a.toNat, ha⟩).toNat / (s.getReg ⟨b.toNat, hb⟩).toNat ∧
        exec (.div a b) s = .next { s with x := s.x.set a.toNat v, pc := s.pc + 3 }) ∧
      (s.getReg ⟨b.toNat, hb⟩ = 0 → exec (.div a b) s = .next (s.enterFault .divisionByZero))) ∧
    (8 ≤ a.toNat → exec (.div a b) s = .next (s.enterFault (.addressOutOfRange a.toNat))) ∧
    (a.toNat < 8 → 8 ≤ b.toNat → exec (.div a b) s = .next (s.enterFault (.addressOutOfRange b.toNat)))

/-! ### The stack, call and return -/

/-- R154: the adjustment of SP is on the integers and a result outside `0 .. 255` is a fault with that integer; so PUSH and
CALL fault at SP 0, POP of another register and RET at SP 255, while SUB on register 7 wraps. -/
def Obligations.StackPointerRangeLaw : Prop :=
  (∀ n : Int, 0 ≤ n → n ≤ 255 → ∃ v : Byte, (v.toNat : Int) = n ∧ adjustSp n = .ok v) ∧
  (∀ n : Int, n < 0 ∨ 255 < n → adjustSp n = .error (.addressOutOfRange n)) ∧
  (∀ (a : Byte) (s : State), s.sp = 0 →
    exec (.push a) s = .next (s.enterFault (.addressOutOfRange (-1))) ∧
    exec (.call a) s = .next (s.enterFault (.addressOutOfRange (-1)))) ∧
  (∀ s : State, s.sp = 255 → exec .ret s = .next (s.enterFault (.addressOutOfRange 256))) ∧
  (∀ (a : Byte) (s : State), s.sp = 255 → a.toNat < 7 →
    exec (.pop a) s = .next (s.enterFault (.addressOutOfRange 256))) ∧
  (∀ (b : Byte) (hb : b.toNat < 8) (s : State), s.sp = 0 → s.getReg ⟨b.toNat, hb⟩ = 1 →
    exec (.sub 7 b) s = .next { s with x := s.x.set 7 255, pc := s.pc + 3 })

/-- R151, with R153(a): SP is decremented, then the operand register is read and stored where SP points. -/
def Obligations.PushStoresBelowStackPointer : Prop :=
  ∀ (a : Byte) (s : State),
    encode defaultOpc (.push a) = [0x45, a] ∧
    (s.sp = 0 → exec (.push a) s = .next (s.enterFault (.addressOutOfRange (-1)))) ∧
    (s.sp ≠ 0 → 8 ≤ a.toNat → exec (.push a) s = .next (s.enterFault (.addressOutOfRange a.toNat))) ∧
    (s.sp ≠ 0 → ∀ ha : a.toNat < 8, exec (.push a) s = .next
      { s with
        x := s.x.set 7 (s.sp - 1)
        mem := s.mem.write (s.sp.toNat - 1) (if a = 7 then s.sp - 1 else s.getReg ⟨a.toNat, ha⟩)
        pc := s.pc + 2 })

/-- R152, with R153(b): the cell SP names is loaded, then SP as it then stands is incremented; the range test is on that. -/
def Obligations.PopLoadsFromStackPointer : Prop :=
  ∀ (a : Byte) (s : State),
    let v := s.mem.read s.sp.toNat
    let base := if a = 7 then v else s.sp
    encode defaultOpc (.pop a) = [0x46, a] ∧
    (8 ≤ a.toNat → exec (.pop a) s = .next (s.enterFault (.addressOutOfRange a.toNat))) ∧
    (a.toNat < 8 → base = 255 → exec (.pop a) s = .next (s.enterFault (.addressOutOfRange 256))) ∧
    (∀ ha : a.toNat < 8, base ≠ 255 →
      exec (.pop a) s = .next { s with x := (s.x.set a.toNat v).set 7 (base + 1), pc := s.pc + 2 })

/-- R153: register 7 as the operand of PUSH and POP, the stored cell by its read. -/
def Obligations.PushPopOfStackPointer : Prop :=
  ∀ s : State, s.mem.wf →
    (s.sp ≠ 0 → ∃ t, exec (.push 7) s = .next t ∧ t.sp = s.sp - 1 ∧ t.mem.read (s.sp.toNat - 1) = s.sp - 1) ∧
    ((s.mem.read s.sp.toNat).toNat ≤ 254 →
      ∃ t, exec (.pop 7) s = .next t ∧ t.sp.toNat = (s.mem.read s.sp.toNat).toNat + 1) ∧
    (s.mem.read s.sp.toNat = 255 → exec (.pop 7) s = .next (s.enterFault (.addressOutOfRange 256)))

/-- R160: the return address `pc + 2` is pushed, then `pc` takes the target register, read after SP was written. -/
def Obligations.CallPushesReturnAddressAndJumps : Prop :=
  ∀ (a : Byte) (s : State),
    encode defaultOpc (.call a) = [0x50, a] ∧
    (s.sp = 0 → exec (.call a) s = .next (s.enterFault (.addressOutOfRange (-1)))) ∧
    (s.sp ≠ 0 → 8 ≤ a.toNat → exec (.call a) s = .next (s.enterFault (.addressOutOfRange a.toNat))) ∧
    (s.pc ≤ 253 → s.sp ≠ 0 → ∀ ha : a.toNat < 8, ∃ ret : Byte, ret.toNat = s.pc + 2 ∧ exec (.call a) s = .next
      { s with
        x := s.x.set 7 (s.sp - 1)
        mem := s.mem.write (s.sp.toNat - 1) ret
        pc := (if a = 7 then s.sp - 1 else s.getReg ⟨a.toNat, ha⟩).toNat })

/-- R163: `CALL R7` pushes the return address at SP - 1 and jumps there. -/
def Obligations.CallOfStackPointerJumpsToReturnCell : Prop :=
  ∀ s : State, s.mem.wf → s.pc ≤ 253 → s.sp ≠ 0 →
    ∃ t, exec (.call 7) s = .next t ∧ t.sp = s.sp - 1 ∧ t.pc = s.sp.toNat - 1 ∧
      (t.mem.read (s.sp.toNat - 1)).toNat = s.pc + 2 ∧
      ∀ addr, addr ≠ s.sp.toNat - 1 → t.mem.read addr = s.mem.read addr

/-- R161. -/
def Obligations.RetPopsProgramCounter : Prop :=
  ∀ s : State,
    encode defaultOpc .ret = [0x11] ∧
    (s.sp = 255 → exec .ret s = .next (s.enterFault (.addressOutOfRange 256))) ∧
    (s.sp ≠ 255 →
      exec .ret s = .next { s with x := s.x.set 7 (s.sp + 1), pc := (s.mem.read s.sp.toNat).toNat })

/-- R162's consequence: after a CALL at `p` with SP `s`, a RET in any state with the SP the CALL left and the pushed cell
not overwritten sets `pc` to `p + 2` and SP back to `s`, and changes nothing else. -/
def Obligations.RetReturnsBehindItsCall : Prop :=
  ∀ (a : Byte) (s t u : State), s.mem.wf → s.pc ≤ 253 → s.running = true →
    exec (.call a) s = .next t → t.running = true →
    u.sp = t.sp → u.mem.read t.sp.toNat = t.mem.read t.sp.toNat →
    exec .ret u = .next { u with x := u.x.set 7 s.sp, pc := s.pc + 2 }

/-- R150, R152: a POP of any register but 7, in any state with the SP a PUSH left and the pushed cell not overwritten,
loads the pushed value and restores SP. -/
def Obligations.PopRestoresPushedValue : Prop :=
  ∀ (a b : Byte) (s t u : State) (ha : a.toNat < 7) (hb : b.toNat < 7), s.mem.wf → s.running = true →
    exec (.push a) s = .next t → t.running = true →
    u.sp = t.sp → u.mem.read t.sp.toNat = t.mem.read t.sp.toNat →
    exec (.pop b) u = .next
      { u with x := (u.x.set b.toNat (s.getReg ⟨a.toNat, by omega⟩)).set 7 s.sp, pc := u.pc + 2 }

/-- R61: a stack write is seen by the very next fetch. After a PUSH or a CALL that completed, whichever cell of the next
slot is the cell stored to holds the stored value. -/
def Obligations.NextFetchSeesStackWrite : Prop :=
  ∀ (a : Byte) (s t : State) (slot : Slot) (n v : Byte), s.mem.wf → s.running = true → t.running = true →
    s.pushSlot = .ok n →
    (exec (.push a) s = .next t ∧ (∀ ha : a.toNat < 8, v = (s.setReg 7 n).getReg ⟨a.toNat, ha⟩)) ∨
      (exec (.call a) s = .next t ∧ s.pc ≤ 253 ∧ v.toNat = s.pc + 2) →
    t.fetch = .ok slot →
    (t.pc = n.toNat → slot.ir = v) ∧ (t.pc + 1 = n.toNat → slot.a = v) ∧ (t.pc + 2 = n.toNat → slot.b = v)

/-! ### Compare and jumps -/

/-- R170: exactly one flag is set, by the unsigned comparison. -/
def Obligations.CmpSetsOneFlag : Prop :=
  ∀ (a b : Byte) (s : State),
    encode defaultOpc (.cmp a b) = [0xA7, a, b] ∧
    (∀ (ha : a.toNat < 8) (hb : b.toNat < 8),
      let va := (s.getReg ⟨a.toNat, ha⟩).toNat
      let vb := (s.getReg ⟨b.toNat, hb⟩).toNat
      exec (.cmp a b) s = .next
        { s with fl := if va = vb then .equal else if va < vb then .less else .greater, pc := s.pc + 3 }) ∧
    (8 ≤ a.toNat → exec (.cmp a b) s = .next (s.enterFault (.addressOutOfRange a.toNat))) ∧
    (a.toNat < 8 → 8 ≤ b.toNat → exec (.cmp a b) s = .next (s.enterFault (.addressOutOfRange b.toNat)))

/-- R172. -/
def Obligations.JmpLoadsProgramCounter : Prop :=
  ∀ (a : Byte) (s : State),
    encode defaultOpc (.jmp a) = [0x54, a] ∧
    (∀ ha : a.toNat < 8, exec (.jmp a) s = .next { s with pc := (s.getReg ⟨a.toNat, ha⟩).toNat }) ∧
    (8 ≤ a.toNat → exec (.jmp a) s = .next (s.enterFault (.addressOutOfRange a.toNat)))

/-- R173: taken exactly when `FL = E`; the index is tested only when the jump is taken. -/
def Obligations.JeqJumpsIfEqual : Prop :=
  ∀ (a : Byte) (s : State),
    encode defaultOpc (.jeq a) = [0x55, a] ∧
    (s.fl = .equal → ∀ ha : a.toNat < 8, exec (.jeq a) s = .next { s with pc := (s.getReg ⟨a.toNat, ha⟩).toNat }) ∧
    (s.fl = .equal → 8 ≤ a.toNat → exec (.jeq a) s = .next (s.enterFault (.addressOutOfRange a.toNat))) ∧
    (s.fl ≠ .equal → exec (.jeq a) s = .next { s with pc := s.pc + 2 })

/-- R174: taken exactly when `FL` is not `E`, so also when no flag is set; the index is tested only when the jump is
taken. -/
def Obligations.JneJumpsIfNotEqual : Prop :=
  ∀ (a : Byte) (s : State),
    encode defaultOpc (.jne a) = [0x56, a] ∧
    (s.fl ≠ .equal → ∀ ha : a.toNat < 8, exec (.jne a) s = .next { s with pc := (s.getReg ⟨a.toNat, ha⟩).toNat }) ∧
    (s.fl ≠ .equal → 8 ≤ a.toNat → exec (.jne a) s = .next (s.enterFault (.addressOutOfRange a.toNat))) ∧
    (s.fl = .equal → exec (.jne a) s = .next { s with pc := s.pc + 2 })

/-- R242, R172: a JMP whose register holds its own address is an endless loop: no number of steps ends it. -/
def Obligations.JumpToItselfNeverEnds : Prop :=
  ∀ (s : State) (ha : (s.mem.read (s.pc + 1)).toNat < 8), s.running = true → s.pc ≤ 253 →
    s.mem.read s.pc = 0x54 → (s.getReg ⟨(s.mem.read (s.pc + 1)).toNat, ha⟩).toNat = s.pc →
    ∀ n, Host.Core.run core n s = .next s

/-! ### Frames: what an instruction leaves unchanged, whatever its operands, whether it completes or takes a fault -/

/-- LDI, MUL, ADD, SUB, DIV: every register but the destination, every cell, the flags and the output are unchanged; the
status changes only by a fault, which changes nothing else. -/
def Obligations.RegisterWritersFrame : Prop :=
  ∀ (a b : Byte) (s t : State), ∀ i ∈ [Instr.ldi a b, .mul a b, .add a b, .sub a b, .div a b], exec i s = .next t →
    (∀ r : Fin 8, r.val ≠ a.toNat → t.getReg r = s.getReg r) ∧
    (∀ addr, t.mem.read addr = s.mem.read addr) ∧ t.fl = s.fl ∧ t.out = s.out ∧
    ((t.running = s.running ∧ t.fault = s.fault) ∨ ∃ k, t = s.enterFault k)

/-- PRN and CMP: every register and every cell is unchanged; PRN leaves the flags, CMP the output; the status changes only
by a fault, which changes nothing else. -/
def Obligations.PrnAndCmpFrame : Prop :=
  ∀ (a b : Byte) (s t : State), ∀ i ∈ [Instr.prn a, .cmp a b], exec i s = .next t →
    (∀ r : Fin 8, t.getReg r = s.getReg r) ∧ (∀ addr, t.mem.read addr = s.mem.read addr) ∧
    (i = .prn a → t.fl = s.fl) ∧ (i = .cmp a b → t.out = s.out) ∧
    ((t.running = s.running ∧ t.fault = s.fault) ∨ ∃ k, t = s.enterFault k)

/-- HLT, JMP, JEQ, JNE: registers, cells, flags and output are unchanged; the status of HLT is `Running` false with `FAULT`
as it was, that of a jump changes only by a fault. -/
def Obligations.HaltAndJumpsFrame : Prop :=
  ∀ (a : Byte) (s t : State), ∀ i ∈ [Instr.hlt, .jmp a, .jeq a, .jne a], exec i s = .next t →
    (∀ r : Fin 8, t.getReg r = s.getReg r) ∧ (∀ addr, t.mem.read addr = s.mem.read addr) ∧
    t.fl = s.fl ∧ t.out = s.out ∧
    (if i = .hlt then t.running = false ∧ t.fault = s.fault
     else (t.running = s.running ∧ t.fault = s.fault) ∨ ∃ k, t = s.enterFault k)

/-- PUSH and CALL: every register but 7, the flags and the output are unchanged, and every cell outside the one the
meaning's own address computation gives; where that gives a fault, every cell. -/
def Obligations.StackStoresFrame : Prop :=
  ∀ (a : Byte) (s t : State), s.mem.wf → ∀ i ∈ [Instr.push a, .call a], exec i s = .next t →
    (∀ r : Fin 8, r ≠ 7 → t.getReg r = s.getReg r) ∧
    (∀ n, s.pushSlot = .ok n → ∀ addr, addr ≠ n.toNat → t.mem.read addr = s.mem.read addr) ∧
    (∀ k, s.pushSlot = .error k → ∀ addr, t.mem.read addr = s.mem.read addr) ∧
    t.fl = s.fl ∧ t.out = s.out ∧
    ((t.running = s.running ∧ t.fault = s.fault) ∨ ∃ k, t = s.enterFault k)

/-- POP and RET: every register but 7 and, for POP, the destination, every cell, the flags and the output are
unchanged. -/
def Obligations.StackLoadsFrame : Prop :=
  ∀ (a : Byte) (s t : State), ∀ i ∈ [Instr.pop a, .ret], exec i s = .next t →
    (∀ r : Fin 8, r ≠ 7 → (i = .pop a → r.val ≠ a.toNat) → t.getReg r = s.getReg r) ∧
    (∀ addr, t.mem.read addr = s.mem.read addr) ∧ t.fl = s.fl ∧ t.out = s.out ∧
    ((t.running = s.running ∧ t.fault = s.fault) ∨ ∃ k, t = s.enterFault k)

/-! ### Rules about the whole machine -/

/-- R22: an instruction changes no register outside the "writes" column; and a register outside the "reads" column has no
influence: with another value in it the instruction leaves the same state, but for that register, which keeps the other
value unless the instruction wrote it. -/
def Obligations.RegistersAreAccessedByTheTable : Prop :=
  ∀ (i : Instr) (s t : State), exec i s = .next t → ∀ r : Fin 8,
    (r.val ∉ registersWritten i → t.getReg r = s.getReg r) ∧
    (r.val ∉ registersRead i → ∀ v : Byte,
      exec i (s.setReg r v) = .next (t.setReg r v) ∨
      (r.val ∈ registersWritten i ∧ exec i (s.setReg r v) = .next t))

/-- R28: only a completed CMP writes `FL`; only JEQ and JNE read it, and only whether it is `E`. With another flag state,
equal to `E` alike for those two, an instruction leaves the same state but for the flags, which keep the other value; a
completed CMP overwrites it, so its next state is the same in the flags too. -/
def Obligations.FlagsAreReadOnlyByConditionalJumps : Prop :=
  ∀ (i : Instr) (s t : State), exec i s = .next t →
    ∀ f : Flags, (∀ a, i ≠ .jeq a ∧ i ≠ .jne a) ∨ (s.fl = .equal ↔ f = .equal) →
      ((∀ a b, i = .cmp a b → 8 ≤ a.toNat ∨ 8 ≤ b.toNat) →
        t.fl = s.fl ∧ exec i { s with fl := f } = .next { t with fl := f }) ∧
      (∀ a b, i = .cmp a b → a.toNat < 8 → b.toNat < 8 → exec i { s with fl := f } = .next t)

/-- R31: `out` is append-only, one value per completed PRN, and the core never reads it: with another history the
instruction leaves the same state and appends the same. -/
def Obligations.OutputIsAppendOnlyAndUnread : Prop :=
  ∀ (i : Instr) (s t : State), exec i s = .next t →
    ∃ l : List Byte, t.out = s.out ++ l ∧ ((∀ a, i ≠ .prn a) → l = []) ∧
      (∀ (a : Byte) (ha : a.toNat < 8), i = .prn a → l = [s.getReg ⟨a.toNat, ha⟩]) ∧
      ∀ o : List Byte, exec i { s with out := o } = .next { t with out := o ++ l }

/-- R32, R51: a step changes a cell only if it executes PUSH or CALL, and only the cell at `SP - 1`. -/
def Obligations.OnlyStackStoresChangeMemory : Prop :=
  ∀ (s t : State) (addr : Nat), s.mem.wf → s.running = true → step s = .next t → t.mem.read addr ≠ s.mem.read addr →
    addr + 1 = s.sp.toNat ∧ (s.mem.read s.pc = 0x45 ∨ s.mem.read s.pc = 0x50)

/-- R171: a completed CMP moves from any state to the one of the three set states that the unsigned comparison decides; every
other instruction, every fault, a faulting CMP included, and `load` leave the flag state (`trace` answers no state at all);
so `none` is never entered, only left; `reset` moves to `FL_RESET`, whatever it is. The one output is whether the state is
`E`: JEQ and JNE do the same in `L` as in `G`. -/
def Obligations.FlagStateMachine : Prop :=
  (∀ (a b : Byte) (ha : a.toNat < 8) (hb : b.toNat < 8) (s : State) (f : Flags),
    let va := (s.getReg ⟨a.toNat, ha⟩).toNat
    let vb := (s.getReg ⟨b.toNat, hb⟩).toNat
    ∃ t, exec (.cmp a b) { s with fl := f } = .next t ∧
      t.fl = if va = vb then .equal else if va < vb then .less else .greater) ∧
  (∀ (i : Instr) (s t : State), (∀ a b, i = .cmp a b → 8 ≤ a.toNat ∨ 8 ≤ b.toNat) → exec i s = .next t → t.fl = s.fl) ∧
  (∀ s t : State, step s = .next t → t.fl ≠ s.fl → t.fl ≠ .none ∧ s.running = true ∧ t.running = true ∧
    ∃ a b, decodeSlot defaultOpc ⟨s.mem.read s.pc, s.mem.read (s.pc + 1), s.mem.read (s.pc + 2)⟩ = .ok (.cmp a b)) ∧
  (∀ (image : List Byte) (s t : State), hostLoad image s = .ok t → t.fl = s.fl) ∧
  (∀ (fl : Flags) (s : State), (hostReset fl s).fl = fl) ∧
  ∀ (a : Byte) (s t : State), ∀ i ∈ [Instr.jeq a, .jne a], exec i { s with fl := .less } = .next t →
    exec i { s with fl := .greater } = .next { t with fl := .greater }

/-- R26: where each instruction leaves `pc`; a step that stops the core, by HLT or by a fault, leaves it. -/
def Obligations.ProgramCounterAfterStep : Prop :=
  ∀ (i : Instr) (s t : State), s.running = true → exec i s = .next t →
    (t.running = false → t.pc = s.pc) ∧
    (t.running = true →
      match i with
      | .hlt => False
      | .ldi _ _ | .mul _ _ | .add _ _ | .sub _ _ | .div _ _ | .cmp _ _ => t.pc = s.pc + 3
      | .prn _ | .push _ | .pop _ => t.pc = s.pc + 2
      | .call a => ∃ ha : a.toNat < 8, t.pc = (t.getReg ⟨a.toNat, ha⟩).toNat
      | .jmp a => ∃ ha : a.toNat < 8, t.pc = (s.getReg ⟨a.toNat, ha⟩).toNat
      | .ret => t.pc = (s.mem.read s.sp.toNat).toNat
      | .jeq a =>
        (s.fl = .equal → ∃ ha : a.toNat < 8, t.pc = (s.getReg ⟨a.toNat, ha⟩).toNat) ∧
        (s.fl ≠ .equal → t.pc = s.pc + 2)
      | .jne a =>
        (s.fl ≠ .equal → ∃ ha : a.toNat < 8, t.pc = (s.getReg ⟨a.toNat, ha⟩).toNat) ∧
        (s.fl = .equal → t.pc = s.pc + 2))

/-- R206: the payload of an AddressOutOfRange that a step brings: -1, 256, or the value of an operand cell of 8 or more. -/
def Obligations.OutOfRangePayloads : Prop :=
  ∀ (s t : State) (n : Int), s.pc ≤ 256 → s.running = true → s.fault = none → step s = .next t →
    t.fault = some (.addressOutOfRange n) →
    n = -1 ∨ n = 256 ∨
      (8 ≤ n ∧ n ≤ 255 ∧ (n = (s.mem.read (s.pc + 1)).toNat ∨ n = (s.mem.read (s.pc + 2)).toNat))

/-- R72, R79: an instruction whose register operands all name registers takes no index fault: an AddressOutOfRange it takes
is a stack-pointer result. -/
def Obligations.WellFormedInstructionsTakeNoIndexFault : Prop :=
  ∀ (i : Instr) (s t : State) (n : Int), i.wellFormed = true → s.fault = none → exec i s = .next t →
    t.fault = some (.addressOutOfRange n) → n = -1 ∨ n = 256

/-! ### Host operations -/

/-- R232: `load` writes the image from address 0 and changes nothing but memory; cells beyond the image keep their value; an
image of more than 256 cells is refused whole. -/
def Obligations.LoadWritesImageOrRefusesIt : Prop :=
  ∀ (image : List Byte) (s : State), s.mem.wf →
    (image.length ≤ 256 → ∃ m : Memory, hostLoad image s = .ok { s with mem := m } ∧
      (∀ (i : Nat) (hi : i < image.length), m.read i = image[i]) ∧
      ∀ i, image.length ≤ i → m.read i = s.mem.read i) ∧
    (256 < image.length → hostLoad image s = .error (.programLoadError .imageTooLarge))

/-- The operations `step` and `run` (R233, R234) in the model's form: `step` is one application of the step and reports the
state it leaves; `run` has no behaviour of its own, it is the sequence of steps, here under fuel (notes/assumptions/8.md);
a stopped core stays as it is, which the model's step answers as a next state (notes/assumptions/2.md), and reports the
stopped state again, halted or its fault. -/
def Obligations.HostRunIsSequenceOfSteps : Prop :=
  (∀ s t : State, step s = .next t → hostStep s = .next (t.report, t)) ∧
  (∀ (n : Nat) (s t : State), Host.Core.run core n s = .next t → hostRun n s = .next (t.report, t)) ∧
  (∀ (n : Nat) (s : State), s.running = false →
    step s = .next s ∧ hostStep s = .next (s.report, s) ∧ hostRun n s = .next (s.report, s) ∧
    (s.fault = none → s.report = .halted) ∧ ∀ k, s.fault = some k → s.report = .fault k) ∧
  ∀ s : State, s.running = true → s.report = .next

/-- R30: `FAULT` is written only by a fault and is never cleared: a step from a running core leaves it unless the step
faults, a stopped core, whose step the model answers with the same state (notes/assumptions/2.md), keeps it, and `load` keeps
it; only `reset` makes it none again. -/
def Obligations.FaultIsStickyUntilReset : Prop :=
  (∀ s t : State, step s = .next t → t.fault ≠ s.fault → s.running = true ∧ t.running = false ∧ ∃ k, t = s.enterFault k) ∧
  (∀ (n : Nat) (s t : State), s.running = false → Host.Core.run core n s = .next t → t.fault = s.fault) ∧
  (∀ (image : List Byte) (s t : State), hostLoad image s = .ok t → t.fault = s.fault) ∧
  ∀ (fl : Flags) (s : State), (hostReset fl s).fault = none

/-- R235: `trace` shows `pc`, the next three cells, absent beyond the last address, and the eight registers. -/
def Obligations.TraceShowsSlotAndRegisters : Prop :=
  ∀ s : State,
    s.trace.pc = s.pc ∧ s.trace.regs = s.x ∧
    (s.pc ≤ 253 → s.trace.cell0 = some (s.mem.read s.pc) ∧ s.trace.cell1 = some (s.mem.read (s.pc + 1)) ∧
      s.trace.cell2 = some (s.mem.read (s.pc + 2))) ∧
    (s.pc = 254 → s.trace.cell0 = some (s.mem.read 254) ∧ s.trace.cell1 = some (s.mem.read 255) ∧ s.trace.cell2 = none) ∧
    (s.pc = 255 → s.trace.cell0 = some (s.mem.read 255) ∧ s.trace.cell1 = none ∧ s.trace.cell2 = none) ∧
    (256 ≤ s.pc → s.trace.cell0 = none ∧ s.trace.cell1 = none ∧ s.trace.cell2 = none)

/-- R200: the fault codes, 0 for no fault. -/
def Obligations.FaultCodesFollowTheTable : Prop :=
  faultCode none = 0 ∧ (∀ o p, faultCode (some (.unknownOpcode o p)) = 1) ∧
  (∀ op, faultCode (some (.unsupportedAluOperation op)) = 2) ∧ faultCode (some .divisionByZero) = 3 ∧
  (∀ n, faultCode (some (.addressOutOfRange n)) = 4) ∧ ∀ r, faultCode (some (.programLoadError r)) = 5
end

