-- ==== Sys2Proof/Laws/Decode.lean ====
section
/-! SUPPORT. The Instruction Table's lookup: what it finds and when it finds nothing (30_encoding.md R75, R78). -/

namespace Sys2Proof

theorem Mnemonic.mem_all (m : Mnemonic) : m ∈ Mnemonic.all := by cases m <;> decide

/-- The fifteen default opcode values are distinct, the one property the rules need of them (R74). -/
theorem defaultOpc_injective (m n : Mnemonic) (h : defaultOpc m = defaultOpc n) : m = n := by
  revert h; cases m <;> cases n <;> decide

/-- A row the lookup finds has the opcode looked up. -/
theorem lookupOpcode_some {opc : OpcodeMap} {ir : Byte} {m : Mnemonic} (h : lookupOpcode opc ir = some m) :
    opc m = ir := by
  simpa using List.find?_some h

/-- The lookup finds nothing exactly when no row has the opcode (R78). -/
theorem lookupOpcode_eq_none {opc : OpcodeMap} {ir : Byte} : lookupOpcode opc ir = none ↔ ∀ m, opc m ≠ ir := by
  simp only [lookupOpcode, List.find?_eq_none]
  exact ⟨fun h m => by simpa using h m m.mem_all, fun h m _ => by simpa using h m⟩

/-- With distinct opcode values the lookup finds each row by its own (R75). -/
theorem lookupOpcode_opc {opc : OpcodeMap} (hopc : ∀ m n, opc m = opc n → m = n) (m : Mnemonic) :
    lookupOpcode opc (opc m) = some m := by
  cases h : lookupOpcode opc (opc m) with
  | none => exact absurd rfl (lookupOpcode_eq_none.1 h m)
  | some n => rw [hopc n m (lookupOpcode_some h)]

end Sys2Proof
end

