-- ==== Sys2Proof/Laws/State.lean ====
section
/-! SUPPORT. What each update of the state does to each field, and to a register read: one lemma per field per update. -/

namespace Sys2Proof.Machine

variable (s : State)

@[simp] theorem State.setReg_mem (r : Fin 8) (v : Byte) : (s.setReg r v).mem = s.mem := rfl
@[simp] theorem State.setReg_x (r : Fin 8) (v : Byte) : (s.setReg r v).x = s.x.set r.val v := rfl
@[simp] theorem State.setReg_pc (r : Fin 8) (v : Byte) : (s.setReg r v).pc = s.pc := rfl
@[simp] theorem State.setReg_fl (r : Fin 8) (v : Byte) : (s.setReg r v).fl = s.fl := rfl
@[simp] theorem State.setReg_running (r : Fin 8) (v : Byte) : (s.setReg r v).running = s.running := rfl
@[simp] theorem State.setReg_fault (r : Fin 8) (v : Byte) : (s.setReg r v).fault = s.fault := rfl
@[simp] theorem State.setReg_out (r : Fin 8) (v : Byte) : (s.setReg r v).out = s.out := rfl

@[simp] theorem State.setPc_mem (t : Nat) : (s.setPc t).mem = s.mem := rfl
@[simp] theorem State.setPc_x (t : Nat) : (s.setPc t).x = s.x := rfl
@[simp] theorem State.setPc_pc (t : Nat) : (s.setPc t).pc = t := rfl
@[simp] theorem State.setPc_fl (t : Nat) : (s.setPc t).fl = s.fl := rfl
@[simp] theorem State.setPc_running (t : Nat) : (s.setPc t).running = s.running := rfl
@[simp] theorem State.setPc_fault (t : Nat) : (s.setPc t).fault = s.fault := rfl
@[simp] theorem State.setPc_out (t : Nat) : (s.setPc t).out = s.out := rfl
@[simp] theorem State.setPc_getReg (t : Nat) (q : Fin 8) : (s.setPc t).getReg q = s.getReg q := rfl
@[simp] theorem State.setPc_sp (t : Nat) : (s.setPc t).sp = s.sp := rfl

@[simp] theorem State.setFlags_mem (f : Flags) : (s.setFlags f).mem = s.mem := rfl
@[simp] theorem State.setFlags_x (f : Flags) : (s.setFlags f).x = s.x := rfl
@[simp] theorem State.setFlags_pc (f : Flags) : (s.setFlags f).pc = s.pc := rfl
@[simp] theorem State.setFlags_fl (f : Flags) : (s.setFlags f).fl = f := rfl
@[simp] theorem State.setFlags_running (f : Flags) : (s.setFlags f).running = s.running := rfl
@[simp] theorem State.setFlags_fault (f : Flags) : (s.setFlags f).fault = s.fault := rfl
@[simp] theorem State.setFlags_out (f : Flags) : (s.setFlags f).out = s.out := rfl
@[simp] theorem State.setFlags_getReg (f : Flags) (q : Fin 8) : (s.setFlags f).getReg q = s.getReg q := rfl
@[simp] theorem State.setFlags_sp (f : Flags) : (s.setFlags f).sp = s.sp := rfl

@[simp] theorem State.setMem_mem (m : Memory) : (s.setMem m).mem = m := rfl
@[simp] theorem State.setMem_x (m : Memory) : (s.setMem m).x = s.x := rfl
@[simp] theorem State.setMem_pc (m : Memory) : (s.setMem m).pc = s.pc := rfl
@[simp] theorem State.setMem_fl (m : Memory) : (s.setMem m).fl = s.fl := rfl
@[simp] theorem State.setMem_running (m : Memory) : (s.setMem m).running = s.running := rfl
@[simp] theorem State.setMem_fault (m : Memory) : (s.setMem m).fault = s.fault := rfl
@[simp] theorem State.setMem_out (m : Memory) : (s.setMem m).out = s.out := rfl
@[simp] theorem State.setMem_getReg (m : Memory) (q : Fin 8) : (s.setMem m).getReg q = s.getReg q := rfl
@[simp] theorem State.setMem_sp (m : Memory) : (s.setMem m).sp = s.sp := rfl

@[simp] theorem State.emit_mem (v : Byte) : (s.emit v).mem = s.mem := rfl
@[simp] theorem State.emit_x (v : Byte) : (s.emit v).x = s.x := rfl
@[simp] theorem State.emit_pc (v : Byte) : (s.emit v).pc = s.pc := rfl
@[simp] theorem State.emit_fl (v : Byte) : (s.emit v).fl = s.fl := rfl
@[simp] theorem State.emit_running (v : Byte) : (s.emit v).running = s.running := rfl
@[simp] theorem State.emit_fault (v : Byte) : (s.emit v).fault = s.fault := rfl
@[simp] theorem State.emit_out (v : Byte) : (s.emit v).out = s.out ++ [v] := rfl
@[simp] theorem State.emit_getReg (v : Byte) (q : Fin 8) : (s.emit v).getReg q = s.getReg q := rfl
@[simp] theorem State.emit_sp (v : Byte) : (s.emit v).sp = s.sp := rfl

@[simp] theorem State.halt_mem : s.halt.mem = s.mem := rfl
@[simp] theorem State.halt_x : s.halt.x = s.x := rfl
@[simp] theorem State.halt_pc : s.halt.pc = s.pc := rfl
@[simp] theorem State.halt_fl : s.halt.fl = s.fl := rfl
@[simp] theorem State.halt_running : s.halt.running = false := rfl
@[simp] theorem State.halt_fault : s.halt.fault = s.fault := rfl
@[simp] theorem State.halt_out : s.halt.out = s.out := rfl
@[simp] theorem State.halt_getReg (q : Fin 8) : s.halt.getReg q = s.getReg q := rfl
@[simp] theorem State.halt_sp : s.halt.sp = s.sp := rfl

@[simp] theorem State.enterFault_mem (k : Fault) : (s.enterFault k).mem = s.mem := rfl
@[simp] theorem State.enterFault_x (k : Fault) : (s.enterFault k).x = s.x := rfl
@[simp] theorem State.enterFault_pc (k : Fault) : (s.enterFault k).pc = s.pc := rfl
@[simp] theorem State.enterFault_fl (k : Fault) : (s.enterFault k).fl = s.fl := rfl
@[simp] theorem State.enterFault_running (k : Fault) : (s.enterFault k).running = false := rfl
@[simp] theorem State.enterFault_fault (k : Fault) : (s.enterFault k).fault = some k := rfl
@[simp] theorem State.enterFault_out (k : Fault) : (s.enterFault k).out = s.out := rfl
@[simp] theorem State.enterFault_getReg (k : Fault) (q : Fin 8) : (s.enterFault k).getReg q = s.getReg q := rfl
@[simp] theorem State.enterFault_sp (k : Fault) : (s.enterFault k).sp = s.sp := rfl

/-- A register write is seen by a read of that register and by no other (R10). -/
theorem State.getReg_setReg (r q : Fin 8) (v : Byte) :
    (s.setReg r v).getReg q = if r = q then v else s.getReg q := by
  simp only [State.getReg, State.setReg, Vector.getElem_set, Fin.val_inj]

@[simp] theorem State.getReg_setReg_same (r : Fin 8) (v : Byte) : (s.setReg r v).getReg r = v := by
  simp [State.getReg_setReg]

theorem State.getReg_setReg_other {r q : Fin 8} (v : Byte) (h : q ≠ r) : (s.setReg r v).getReg q = s.getReg q := by
  simp [State.getReg_setReg, h.symm]

/-- SP is the register at `SP_INDEX` (R23). -/
theorem State.sp_eq_getReg : s.sp = s.getReg Config.spIndex := rfl

@[simp] theorem State.sp_setReg_spIndex (v : Byte) : (s.setReg Config.spIndex v).sp = v := by
  simp [State.sp_eq_getReg]

end Sys2Proof.Machine
end

