-- ==== Sys2Proof/Laws/Ops.lean ====
section
/-! SUPPORT. One lemma per shared operation that says everything it can do: the range checks, the stack pointer, the ALU
handler, the jumps, the fetch, and how a handler's result becomes the next state. -/

namespace Sys2Proof.Machine

/-! ### Range checks (R10, R11, R154) -/

theorem regIndex_ok {i : Byte} (h : i.toNat < 8) : regIndex i = .ok ⟨i.toNat, h⟩ := by simp [regIndex, h]

theorem regIndex_error {i : Byte} (h : 8 ≤ i.toNat) : regIndex i = .error (.addressOutOfRange i.toNat) := by
  simp [regIndex, Nat.not_lt.2 h]

/-- What a register index test can answer. -/
theorem regIndex_cases (i : Byte) :
    (∃ h : i.toNat < 8, regIndex i = .ok ⟨i.toNat, h⟩) ∨
    (8 ≤ i.toNat ∧ regIndex i = .error (.addressOutOfRange i.toNat)) := by
  rcases Nat.lt_or_ge i.toNat 8 with h | h
  · exact .inl ⟨h, regIndex_ok h⟩
  · exact .inr ⟨h, regIndex_error h⟩

theorem State.memRead_ok (s : State) {n : Nat} (h : n < 256) : s.memRead n = .ok (s.mem.read n) := by
  have hn : ¬ ((n : Int) < 0 ∨ (Config.memSize : Int) ≤ n) := by simp only [Config.memSize]; omega
  rw [State.memRead, if_neg hn, Int.toNat_natCast]

theorem State.memRead_error (s : State) {addr : Int} (h : addr < 0 ∨ 256 ≤ addr) :
    s.memRead addr = .error (.addressOutOfRange addr) := by
  simp [State.memRead, h]

theorem State.memWrite_ok (s : State) {n : Nat} (v : Byte) (h : n < 256) :
    s.memWrite n v = .ok (s.setMem (s.mem.write n v)) := by
  have hn : ¬ ((n : Int) < 0 ∨ (Config.memSize : Int) ≤ n) := by simp only [Config.memSize]; omega
  rw [State.memWrite, if_neg hn, Int.toNat_natCast]

theorem State.memWrite_error (s : State) {addr : Int} (v : Byte) (h : addr < 0 ∨ 256 ≤ addr) :
    s.memWrite addr v = .error (.addressOutOfRange addr) := by
  simp [State.memWrite, h]

/-- The cell a register names always exists (R38(b)). -/
@[simp] theorem State.memRead_byte (s : State) (v : Byte) : s.memRead v.toNat = .ok (s.mem.read v.toNat) :=
  s.memRead_ok v.isLt

@[simp] theorem State.memWrite_byte (s : State) (a v : Byte) :
    s.memWrite a.toNat v = .ok (s.setMem (s.mem.write a.toNat v)) :=
  s.memWrite_ok v a.isLt

/-- Decrement of a stack pointer above 0 (R154). -/
theorem adjustSp_pred {v : Byte} (h : v ≠ 0) : adjustSp ((v.toNat : Int) - 1) = .ok (v - 1) := by
  have hv : 0 < v.toNat := by
    rcases Nat.eq_zero_or_pos v.toNat with h0 | h0
    · exact absurd (BitVec.eq_of_toNat_eq (by simpa using h0)) h
    · exact h0
  have hlt := v.isLt
  have hc : ¬ ((v.toNat : Int) - 1 < 0 ∨ (Config.memSize : Int) ≤ (v.toNat : Int) - 1) := by
    simp only [Config.memSize]; omega
  simp only [adjustSp, if_neg hc, Except.ok.injEq]
  apply BitVec.eq_of_toNat_eq
  rw [BitVec.toNat_ofInt, BitVec.toNat_sub, show (1 : Byte).toNat = 1 from rfl]
  omega

/-- Increment of a stack pointer below 255 (R154). -/
theorem adjustSp_succ {v : Byte} (h : v ≠ 255) : adjustSp ((v.toNat : Int) + 1) = .ok (v + 1) := by
  have hv : v.toNat ≠ 255 := fun h0 => h (BitVec.eq_of_toNat_eq (by simpa using h0))
  have hlt := v.isLt
  have hc : ¬ ((v.toNat : Int) + 1 < 0 ∨ (Config.memSize : Int) ≤ (v.toNat : Int) + 1) := by
    simp only [Config.memSize]; omega
  simp only [adjustSp, if_neg hc, Except.ok.injEq]
  apply BitVec.eq_of_toNat_eq
  rw [BitVec.toNat_ofInt, BitVec.toNat_add, show (1 : Byte).toNat = 1 from rfl]
  omega

theorem adjustSp_overflow : adjustSp (((0 : Byte).toNat : Int) - 1) = .error (.addressOutOfRange (-1)) := by decide

theorem adjustSp_underflow : adjustSp (((255 : Byte).toNat : Int) + 1) = .error (.addressOutOfRange 256) := by decide

/-- Where a push goes (R150, R154). -/
theorem State.pushSlot_ok {s : State} (h : s.sp ≠ 0) : s.pushSlot = .ok (s.sp - 1) := adjustSp_pred h

theorem State.pushSlot_error {s : State} (h : s.sp = 0) : s.pushSlot = .error (.addressOutOfRange (-1)) := by
  simp only [State.pushSlot, h]; exact adjustSp_overflow

/-- The stack slot below a stack pointer above 0, as an address. -/
theorem toNat_sub_one {v : Byte} (h : v ≠ 0) : (v - 1).toNat = v.toNat - 1 := by
  have hv : 0 < v.toNat := by
    rcases Nat.eq_zero_or_pos v.toNat with h0 | h0
    · exact absurd (BitVec.eq_of_toNat_eq (by simpa using h0)) h
    · exact h0
  have hlt := v.isLt
  rw [BitVec.toNat_sub, show (1 : Byte).toNat = 1 from rfl]
  omega

/-! ### From a handler's result to the next state (R100, R12) -/

@[simp] theorem conclude_error (s : State) (k : Fault) : conclude s (.error k) = s.enterFault k := rfl

@[simp] theorem conclude_ok (s t : State) (n : Nat) : conclude s (.ok ⟨t, n, true⟩) = t.setPc (t.pc + n) := rfl

@[simp] theorem conclude_halt (s t : State) (n : Nat) : conclude s (.ok ⟨t, n, false⟩) = t.halt := rfl

@[simp] theorem settle_next (s t : State) (r : Except Fault Handled) : settle s r = .next t ↔ conclude s r = t := by
  simp [settle]

/-! ### The ALU handler (R130, R133 to R136, R170) -/

theorem aluHandler_bad_a (op : AluTag) {a : Byte} (b : Byte) (s : State) (ha : 8 ≤ a.toNat) :
    aluHandler op a b s = .error (.addressOutOfRange a.toNat) := by
  rw [aluHandler, regIndex_error ha]; rfl

theorem aluHandler_bad_b (op : AluTag) {a b : Byte} (s : State) (ha : a.toNat < 8) (hb : 8 ≤ b.toNat) :
    aluHandler op a b s = .error (.addressOutOfRange b.toNat) := by
  rw [aluHandler, regIndex_ok ha, regIndex_error hb]; rfl

theorem aluHandler_error (op : AluTag) {a b : Byte} (s : State) (ha : a.toNat < 8) (hb : b.toNat < 8) {k : Fault}
    (h : alu op (s.getReg ⟨a.toNat, ha⟩) (s.getReg ⟨b.toNat, hb⟩) = .error k) : aluHandler op a b s = .error k := by
  rw [aluHandler, regIndex_ok ha, regIndex_ok hb]
  simp only [bind, Except.bind]
  rw [h]

theorem aluHandler_ok (op : AluTag) {a b : Byte} (s : State) (ha : a.toNat < 8) (hb : b.toNat < 8) {out : AluOutput}
    (h : alu op (s.getReg ⟨a.toNat, ha⟩) (s.getReg ⟨b.toNat, hb⟩) = .ok out) :
    aluHandler op a b s = .ok ⟨s.writeBack ⟨a.toNat, ha⟩ out, 3, true⟩ := by
  rw [aluHandler, regIndex_ok ha, regIndex_ok hb]
  simp only [bind, Except.bind]
  rw [h]
  rfl

/-! ### Transfers (R172 to R174) -/

theorem jumpHandler_ok {a : Byte} (s : State) (ha : a.toNat < 8) :
    jumpHandler a s = .ok ⟨s.setPc (s.getReg ⟨a.toNat, ha⟩).toNat, 0, true⟩ := by
  rw [jumpHandler, regIndex_ok ha]; rfl

theorem jumpHandler_error {a : Byte} (s : State) (ha : 8 ≤ a.toNat) :
    jumpHandler a s = .error (.addressOutOfRange a.toNat) := by
  rw [jumpHandler, regIndex_error ha]; rfl

@[simp] theorem branchHandler_taken (a : Byte) (s : State) : branchHandler true a s = jumpHandler a s := rfl

@[simp] theorem branchHandler_not_taken (a : Byte) (s : State) : branchHandler false a s = .ok ⟨s, 2, true⟩ := rfl

theorem flagsEqual_eq_true {f : Flags} : flagsEqual f = true ↔ f = .equal := by simp [flagsEqual]

theorem flagsEqual_eq_false {f : Flags} : flagsEqual f = false ↔ f ≠ .equal := by simp [flagsEqual]

/-! ### Fetch and dispatch (R101, R102) -/

/-- A complete slot is read whole. -/
theorem State.fetch_ok (s : State) (h : s.pc ≤ 253) :
    s.fetch = .ok ⟨s.mem.read s.pc, s.mem.read (s.pc + 1), s.mem.read (s.pc + 2)⟩ := by
  rw [State.fetch, s.memRead_ok (by omega),
    show ((s.pc : Int) + 1) = ((s.pc + 1 : Nat) : Int) by omega, s.memRead_ok (by omega),
    show ((s.pc : Int) + 2) = ((s.pc + 2 : Nat) : Int) by omega, s.memRead_ok (by omega)]
  rfl

/-- What a fetch can answer, `pc` in any range. -/
theorem State.fetch_error (s : State) (h : 254 ≤ s.pc) :
    s.fetch = .error (.addressOutOfRange (if s.pc ≤ 256 then 256 else s.pc)) := by
  rcases Nat.lt_or_ge s.pc 256 with hlt | hge
  · rw [State.fetch, s.memRead_ok hlt]
    rcases Nat.lt_or_ge s.pc 255 with h254 | h255
    · have hpc : s.pc = 254 := by omega
      rw [show ((s.pc : Int) + 1) = ((s.pc + 1 : Nat) : Int) by omega, s.memRead_ok (by omega),
        s.memRead_error (addr := (s.pc : Int) + 2) (by omega)]
      simp [bind, Except.bind, hpc]
    · have hpc : s.pc = 255 := by omega
      rw [s.memRead_error (addr := (s.pc : Int) + 1) (by omega)]
      simp [bind, Except.bind, hpc]
  · rw [State.fetch, s.memRead_error (addr := (s.pc : Int)) (by omega)]
    by_cases hpc : s.pc = 256
    · simp [bind, Except.bind, hpc]
    · have : ¬ s.pc ≤ 256 := by omega
      simp [bind, Except.bind, this]

/-- Every instruction answers a next state; a fault it takes is one (R201). -/
theorem exec_answers_next (i : Instr) (s : State) : ∃ t, exec i s = .next t := by
  cases i <;> exact ⟨_, rfl⟩

end Sys2Proof.Machine
end

