-- ==== Sys2Proof/Laws/Exec.lean ====
section
/-! SUPPORT. What an instruction can do: one lemma per meaning, and one for `exec`. Each says that a next state is either the
instruction's own effect or the entry of one of the faults the instruction can take. -/

namespace Sys2Proof.Machine

/-- The faults an instruction can take: a zero divisor, a stack-pointer result of -1 or 256, or an operand cell of 8 or more
used as a register index (R205, R206). -/
def InstrFault (i : Instr) (k : Fault) : Prop :=
  k = .divisionByZero ∨ k = .addressOutOfRange (-1) ∨ k = .addressOutOfRange 256 ∨
    ∃ c ∈ i.registerOperands, 8 ≤ c.toNat ∧ k = .addressOutOfRange c.toNat

/-- The state `t` is the entry of a fault the instruction takes in `s` (R12). -/
def TakesFault (i : Instr) (s t : State) : Prop := ∃ k, InstrFault i k ∧ t = s.enterFault k

/-- The effect of a completed ALU instruction (R133 to R136, R170). -/
def AluEffect (op : AluTag) (a b : Byte) (s t : State) : Prop :=
  ∃ (ha : a.toNat < 8) (hb : b.toNat < 8) (out : AluOutput),
    alu op (s.getReg ⟨a.toNat, ha⟩) (s.getReg ⟨b.toNat, hb⟩) = .ok out ∧
    t = (s.writeBack ⟨a.toNat, ha⟩ out).setPc (s.pc + 3)

/-- The effect of a completed transfer to the address in a register (R172). -/
def JumpEffect (a : Byte) (s t : State) : Prop :=
  ∃ ha : a.toNat < 8, t = s.setPc (s.getReg ⟨a.toNat, ha⟩).toNat

/-- The state in which a PUSH or CALL stores: SP decremented (R151, R160). -/
def State.pushed (s : State) : State := s.setReg Config.spIndex (s.sp - 1)

/-- The effect of a completed instruction. -/
def Effect (i : Instr) (s t : State) : Prop :=
  match i with
  | .hlt => t = s.halt
  | .ldi a imm => ∃ ha : a.toNat < 8, t = (s.setReg ⟨a.toNat, ha⟩ imm).setPc (s.pc + 3)
  | .prn a => ∃ ha : a.toNat < 8, t = (s.emit (s.getReg ⟨a.toNat, ha⟩)).setPc (s.pc + 2)
  | .mul a b => AluEffect .mul a b s t
  | .add a b => AluEffect .add a b s t
  | .sub a b => AluEffect .sub a b s t
  | .div a b => AluEffect .div a b s t
  | .push a => s.sp ≠ 0 ∧ ∃ ha : a.toNat < 8,
      t = (s.pushed.setMem (s.mem.write (s.sp - 1).toNat (s.pushed.getReg ⟨a.toNat, ha⟩))).setPc (s.pc + 2)
  | .pop a => ∃ ha : a.toNat < 8,
      let v := s.mem.read s.sp.toNat
      let base := if a = 7 then v else s.sp
      base ≠ 255 ∧ t = ((s.setReg ⟨a.toNat, ha⟩ v).setReg Config.spIndex (base + 1)).setPc (s.pc + 2)
  | .call a => s.sp ≠ 0 ∧ ∃ ha : a.toNat < 8,
      t = (s.pushed.setMem (s.mem.write (s.sp - 1).toNat s.returnAddress)).setPc (s.pushed.getReg ⟨a.toNat, ha⟩).toNat
  | .ret => s.sp ≠ 255 ∧ t = (s.setReg Config.spIndex (s.sp + 1)).setPc (s.mem.read s.sp.toNat).toNat
  | .cmp a b => AluEffect .cmp a b s t
  | .jmp a => JumpEffect a s t
  | .jeq a => if s.fl = .equal then JumpEffect a s t else t = s.setPc (s.pc + 2)
  | .jne a => if s.fl = .equal then t = s.setPc (s.pc + 2) else JumpEffect a s t

theorem operand_fault {i : Instr} {s t : State} {c : Byte} (hc : c ∈ i.registerOperands) (h8 : 8 ≤ c.toNat)
    (ht : t = s.enterFault (.addressOutOfRange c.toNat)) : TakesFault i s t :=
  ⟨_, .inr (.inr (.inr ⟨c, hc, h8, rfl⟩)), ht⟩

@[simp] theorem State.writeBack_pc (s : State) (r : Fin 8) (out : AluOutput) : (s.writeBack r out).pc = s.pc := by
  cases out <;> rfl

/-- What the ALU can answer to a tag the decoder produces: a zero divisor is its only fault (R130, R205). -/
theorem alu_error {op : AluTag} {va vb : Byte} {k : Fault} (hop : ∀ tag, op ≠ .unrecognized tag)
    (h : alu op va vb = .error k) : op = .div ∧ vb = 0 ∧ k = .divisionByZero := by
  cases op with
  | mul => cases h
  | add => cases h
  | sub => cases h
  | cmp => cases h
  | unrecognized tag => exact absurd rfl (hop tag)
  | div =>
    simp only [alu] at h
    split at h
    · rename_i h0
      cases h
      exact ⟨rfl, BitVec.eq_of_toNat_eq (by simpa using h0), rfl⟩
    · cases h

theorem aluHandler_cases {op : AluTag} {i : Instr} {a b : Byte} {s t : State} (hop : ∀ tag, op ≠ .unrecognized tag)
    (ha : a ∈ i.registerOperands) (hb : b ∈ i.registerOperands) (h : settle s (aluHandler op a b s) = .next t) :
    TakesFault i s t ∨ AluEffect op a b s t := by
  rw [settle_next] at h
  rcases Nat.lt_or_ge a.toNat 8 with ha8 | ha8
  · rcases Nat.lt_or_ge b.toNat 8 with hb8 | hb8
    · cases hx : alu op (s.getReg ⟨a.toNat, ha8⟩) (s.getReg ⟨b.toNat, hb8⟩) with
      | error k =>
        rw [aluHandler_error op s ha8 hb8 hx] at h
        exact .inl ⟨k, .inl (alu_error hop hx).2.2, h.symm⟩
      | ok out =>
        rw [aluHandler_ok op s ha8 hb8 hx, conclude_ok, State.writeBack_pc] at h
        exact .inr ⟨ha8, hb8, out, hx, h.symm⟩
    · rw [aluHandler_bad_b op s ha8 hb8] at h
      exact .inl (operand_fault hb hb8 h.symm)
  · rw [aluHandler_bad_a op b s ha8] at h
    exact .inl (operand_fault ha ha8 h.symm)

theorem jumpHandler_cases {i : Instr} {a : Byte} {s t : State} (ha : a ∈ i.registerOperands)
    (h : settle s (jumpHandler a s) = .next t) : TakesFault i s t ∨ JumpEffect a s t := by
  rw [settle_next] at h
  rcases Nat.lt_or_ge a.toNat 8 with ha8 | ha8
  · rw [jumpHandler_ok s ha8] at h
    exact .inr ⟨ha8, h.symm⟩
  · rw [jumpHandler_error s ha8] at h
    exact .inl (operand_fault ha ha8 h.symm)

theorem execLdi_cases {a imm : Byte} {s t : State} (h : execLdi a imm s = .next t) :
    TakesFault (.ldi a imm) s t ∨ Effect (.ldi a imm) s t := by
  rw [execLdi, settle_next] at h
  rcases regIndex_cases a with ⟨ha, hr⟩ | ⟨ha, hr⟩ <;> rw [hr] at h
  · exact .inr ⟨ha, h.symm⟩
  · exact .inl (operand_fault (by simp [Instr.registerOperands]) ha h.symm)

theorem execPrn_cases {a : Byte} {s t : State} (h : execPrn a s = .next t) :
    TakesFault (.prn a) s t ∨ Effect (.prn a) s t := by
  rw [execPrn, settle_next] at h
  rcases regIndex_cases a with ⟨ha, hr⟩ | ⟨ha, hr⟩ <;> rw [hr] at h
  · exact .inr ⟨ha, h.symm⟩
  · exact .inl (operand_fault (by simp [Instr.registerOperands]) ha h.symm)

theorem execPush_cases {a : Byte} {s t : State} (h : execPush a s = .next t) :
    TakesFault (.push a) s t ∨ Effect (.push a) s t := by
  rw [execPush, settle_next] at h
  by_cases h0 : s.sp = 0
  · rw [State.pushSlot_error h0] at h
    exact .inl ⟨_, .inr (.inl rfl), h.symm⟩
  · rw [State.pushSlot_ok h0] at h
    rcases regIndex_cases a with ⟨ha, hr⟩ | ⟨ha, hr⟩
    · simp only [bind, Except.bind, hr, State.memWrite_byte] at h
      exact .inr ⟨h0, ha, h.symm⟩
    · simp only [bind, Except.bind, hr] at h
      exact .inl (operand_fault (by simp [Instr.registerOperands]) ha h.symm)

theorem execPop_cases {a : Byte} {s t : State} (h : execPop a s = .next t) :
    TakesFault (.pop a) s t ∨ Effect (.pop a) s t := by
  rw [execPop, settle_next] at h
  rcases regIndex_cases a with ⟨ha, hr⟩ | ⟨ha, hr⟩
  · have h7 : ((⟨a.toNat, ha⟩ : Fin 8) = Config.spIndex) ↔ a = 7 := by
      rw [Fin.ext_iff, ← BitVec.toNat_inj]; rfl
    simp only [bind, Except.bind, hr, State.memRead_byte, h7] at h
    by_cases hb : (if a = 7 then s.mem.read s.sp.toNat else s.sp) = 255
    · rw [hb, adjustSp_underflow] at h
      exact .inl ⟨_, .inr (.inr (.inl rfl)), h.symm⟩
    · rw [adjustSp_succ hb] at h
      exact .inr ⟨ha, hb, h.symm⟩
  · rw [hr] at h
    exact .inl (operand_fault (by simp [Instr.registerOperands]) ha h.symm)

theorem execCall_cases {a : Byte} {s t : State} (h : execCall a s = .next t) :
    TakesFault (.call a) s t ∨ Effect (.call a) s t := by
  rw [execCall, settle_next] at h
  by_cases h0 : s.sp = 0
  · rw [State.pushSlot_error h0] at h
    exact .inl ⟨_, .inr (.inl rfl), h.symm⟩
  · rw [State.pushSlot_ok h0] at h
    rcases regIndex_cases a with ⟨ha, hr⟩ | ⟨ha, hr⟩
    · simp only [bind, Except.bind, hr, State.memWrite_byte] at h
      exact .inr ⟨h0, ha, h.symm⟩
    · simp only [bind, Except.bind, hr] at h
      exact .inl (operand_fault (by simp [Instr.registerOperands]) ha h.symm)

theorem execRet_cases {s t : State} (h : execRet s = .next t) : TakesFault .ret s t ∨ Effect .ret s t := by
  rw [execRet, settle_next] at h
  simp only [bind, Except.bind, State.memRead_byte] at h
  by_cases h255 : s.sp = 255
  · rw [h255, adjustSp_underflow] at h
    exact .inl ⟨_, .inr (.inr (.inl rfl)), h.symm⟩
  · rw [adjustSp_succ h255] at h
    exact .inr ⟨h255, h.symm⟩

theorem execJeq_cases {a : Byte} {s t : State} (h : execJeq a s = .next t) :
    TakesFault (.jeq a) s t ∨ Effect (.jeq a) s t := by
  rw [execJeq] at h
  by_cases hf : s.fl = .equal
  · rw [flagsEqual_eq_true.2 hf, branchHandler_taken] at h
    simp only [Effect, if_pos hf]
    exact jumpHandler_cases (by simp [Instr.registerOperands]) h
  · rw [flagsEqual_eq_false.2 hf, branchHandler_not_taken, settle_next] at h
    simp only [Effect, if_neg hf]
    exact .inr h.symm

theorem execJne_cases {a : Byte} {s t : State} (h : execJne a s = .next t) :
    TakesFault (.jne a) s t ∨ Effect (.jne a) s t := by
  rw [execJne] at h
  by_cases hf : s.fl = .equal
  · rw [flagsEqual_eq_true.2 hf, Bool.not_true, branchHandler_not_taken, settle_next] at h
    simp only [Effect, if_pos hf]
    exact .inr h.symm
  · rw [flagsEqual_eq_false.2 hf, Bool.not_false, branchHandler_taken] at h
    simp only [Effect, if_neg hf]
    exact jumpHandler_cases (by simp [Instr.registerOperands]) h

/-- What `exec` can do: every next state is the instruction's effect or the entry of a fault it takes. -/
theorem exec_cases {i : Instr} {s t : State} (h : exec i s = .next t) : TakesFault i s t ∨ Effect i s t := by
  cases i with
  | hlt => exact .inr ((settle_next ..).1 h).symm
  | ldi a imm => exact execLdi_cases h
  | prn a => exact execPrn_cases h
  | mul a b => exact aluHandler_cases (by simp) (by simp [Instr.registerOperands]) (by simp [Instr.registerOperands]) h
  | add a b => exact aluHandler_cases (by simp) (by simp [Instr.registerOperands]) (by simp [Instr.registerOperands]) h
  | sub a b => exact aluHandler_cases (by simp) (by simp [Instr.registerOperands]) (by simp [Instr.registerOperands]) h
  | div a b => exact aluHandler_cases (by simp) (by simp [Instr.registerOperands]) (by simp [Instr.registerOperands]) h
  | push a => exact execPush_cases h
  | pop a => exact execPop_cases h
  | call a => exact execCall_cases h
  | ret => exact execRet_cases h
  | cmp a b => exact aluHandler_cases (by simp) (by simp [Instr.registerOperands]) (by simp [Instr.registerOperands]) h
  | jmp a => exact jumpHandler_cases (by simp [Instr.registerOperands]) h
  | jeq a => exact execJeq_cases h
  | jne a => exact execJne_cases h

/-- A completed instruction other than HLT leaves `Running` and `FAULT` as they are (R29, R30). -/
theorem effect_status {i : Instr} {s t : State} (h : Effect i s t) :
    (i = .hlt ∧ t = s.halt) ∨ (t.running = s.running ∧ t.fault = s.fault) := by
  have ofAlu {op : AluTag} {a b : Byte} (h : AluEffect op a b s t) : t.running = s.running ∧ t.fault = s.fault := by
    obtain ⟨_, _, out, _, rfl⟩ := h
    cases out <;> exact ⟨rfl, rfl⟩
  have ofJump {a : Byte} (h : JumpEffect a s t) : t.running = s.running ∧ t.fault = s.fault := by
    obtain ⟨_, rfl⟩ := h
    exact ⟨rfl, rfl⟩
  cases i with
  | hlt => exact .inl ⟨rfl, h⟩
  | ldi a imm => obtain ⟨_, rfl⟩ := h; exact .inr ⟨rfl, rfl⟩
  | prn a => obtain ⟨_, rfl⟩ := h; exact .inr ⟨rfl, rfl⟩
  | mul a b => exact .inr (ofAlu h)
  | add a b => exact .inr (ofAlu h)
  | sub a b => exact .inr (ofAlu h)
  | div a b => exact .inr (ofAlu h)
  | push a => obtain ⟨_, _, rfl⟩ := h; exact .inr ⟨rfl, rfl⟩
  | pop a => obtain ⟨_, _, rfl⟩ := h; exact .inr ⟨rfl, rfl⟩
  | call a => obtain ⟨_, _, rfl⟩ := h; exact .inr ⟨rfl, rfl⟩
  | ret => obtain ⟨_, rfl⟩ := h; exact .inr ⟨rfl, rfl⟩
  | cmp a b => exact .inr (ofAlu h)
  | jmp a => exact .inr (ofJump h)
  | jeq a =>
    simp only [Effect] at h
    split at h
    · exact .inr (ofJump h)
    · subst h; exact .inr ⟨rfl, rfl⟩
  | jne a =>
    simp only [Effect] at h
    split at h
    · subst h; exact .inr ⟨rfl, rfl⟩
    · exact .inr (ofJump h)

/-- What a step can do under any Instruction Table: nothing in a stopped core; in a running one the fetch fault, the unknown
opcode, or the decoded instruction (R100, R106). -/
theorem engineStep_cases {opc : OpcodeMap} {s t : State} (h : engineStep opc s = .next t) :
    (s.running = false ∧ t = s) ∨
    (s.running = true ∧ 254 ≤ s.pc ∧ t = s.enterFault (.addressOutOfRange (if s.pc ≤ 256 then 256 else s.pc))) ∨
    (s.running = true ∧ s.pc ≤ 253 ∧ lookupOpcode opc (s.mem.read s.pc) = none ∧
      t = s.enterFault (.unknownOpcode (s.mem.read s.pc) s.pc)) ∨
    (s.running = true ∧ s.pc ≤ 253 ∧ ∃ i,
      decodeSlot opc ⟨s.mem.read s.pc, s.mem.read (s.pc + 1), s.mem.read (s.pc + 2)⟩ = .ok i ∧ exec i s = .next t) := by
  unfold engineStep at h
  cases hr : s.running with
  | false => simp only [hr] at h; cases h; exact .inl ⟨rfl, rfl⟩
  | true =>
    simp only [hr, if_true] at h
    rcases Nat.lt_or_ge s.pc 254 with hpc | hpc
    · have hpc : s.pc ≤ 253 := by omega
      rw [s.fetch_ok hpc] at h
      simp only at h
      cases hd : decodeSlot opc ⟨s.mem.read s.pc, s.mem.read (s.pc + 1), s.mem.read (s.pc + 2)⟩ with
      | ok i => rw [hd] at h; exact .inr (.inr (.inr ⟨rfl, hpc, i, rfl, h⟩))
      | error e =>
        obtain ⟨opcode⟩ := e
        rw [hd] at h
        cases h
        simp only [decodeSlot] at hd
        split at hd
        · cases hd
        · rename_i hl; cases hd; exact .inr (.inr (.inl ⟨rfl, hpc, hl, rfl⟩))
    · rw [s.fetch_error hpc] at h
      cases h
      exact .inr (.inl ⟨rfl, hpc, rfl⟩)

end Sys2Proof.Machine
end

