-- ==== Sys2Proof/Laws/Memory.lean ====
section
/-! SUPPORT. The laws of the memory array: read after write, the canonical form kept by every operation, and equality of
canonical memories that read alike (20_memory.md R50, R55). -/

namespace Sys2Proof.Machine

theorem Memory.wf_nil : Memory.wf [] := by simp [Memory.wf]

/-- The canonical form of a non-empty list, one cell at a time. -/
theorem Memory.wf_cons {k : Nat} {w : Byte} {m : Memory} :
    Memory.wf ((k, w) :: m) ↔ (∀ c ∈ m, k < c.1) ∧ k < 256 ∧ w ≠ 0 ∧ Memory.wf m := by
  simp only [Memory.wf, List.pairwise_cons, List.mem_cons, forall_eq_or_imp, Memory.unlisted]
  tauto

/-- Below a canonical list's first address nothing is listed. -/
theorem Memory.read_of_all_above {m : Memory} {addr : Nat} (h : ∀ c ∈ m, addr < c.1) : m.read addr = 0 := by
  induction m with
  | nil => rfl
  | cons c m ih =>
    have hc := h c (by simp)
    simp only [Memory.read, if_neg (Nat.ne_of_gt hc)]
    exact ih fun d hd => h d (by simp [hd])

/-- Read after write on a canonical memory: the written cell holds the value, every other cell keeps its own (R55). -/
theorem Memory.read_write {m : Memory} (hm : m.wf) (addr b : Nat) (v : Byte) :
    (m.write addr v).read b = if addr = b then v else m.read b := by
  induction m with
  | nil =>
    simp only [Memory.write]
    split <;> split <;> simp_all [Memory.read]
  | cons c m ih =>
    obtain ⟨k, w⟩ := c
    obtain ⟨habove, -, -, hrest⟩ := Memory.wf_cons.1 hm
    have hk : Memory.read m k = 0 := Memory.read_of_all_above habove
    simp only [Memory.write]
    split
    · rename_i hlt
      have ha : Memory.read ((k, w) :: m) addr = 0 :=
        Memory.read_of_all_above (by
          simp only [List.mem_cons, forall_eq_or_imp]
          exact ⟨hlt, fun c hc => hlt.trans (habove c hc)⟩)
      split
      · rename_i hv
        split
        · subst addr; rw [ha, hv]; rfl
        · rfl
      · rfl
    · split
      · rename_i _ heq
        subst heq
        split
        · rename_i hv
          split
          · subst b; rw [hk, hv]; rfl
          · rename_i hne; simp [Memory.read, hne]
        · by_cases hb : addr = b <;> simp [Memory.read, hb]
      · rename_i _ hne
        simp only [Memory.read, ih hrest]
        by_cases hb : k = b
        · have : addr ≠ b := by omega
          simp [hb, this]
        · simp [hb]

/-- A cell keeps its address above `k` through a write above `k`. -/
theorem Memory.write_above {m : Memory} {k addr : Nat} {v : Byte} (hm : ∀ c ∈ m, k < c.1) (ha : k < addr) :
    ∀ c ∈ m.write addr v, k < c.1 := by
  induction m with
  | nil => simp only [Memory.write]; split <;> simp [ha]
  | cons c m ih =>
    simp only [List.mem_cons, forall_eq_or_imp] at hm
    simp only [Memory.write]
    split_ifs <;> (try simp only [List.mem_cons, forall_eq_or_imp]) <;> tauto

/-- A write of one of the 256 cells keeps the canonical form. -/
theorem Memory.wf_write {m : Memory} {addr : Nat} {v : Byte} (hm : m.wf) (ha : addr < 256) : (m.write addr v).wf := by
  induction m with
  | nil =>
    simp only [Memory.write]
    split
    · exact Memory.wf_nil
    · rename_i hv
      exact Memory.wf_cons.2 ⟨by simp, ha, hv, Memory.wf_nil⟩
  | cons c m ih =>
    obtain ⟨k, w⟩ := c
    obtain ⟨habove, hk, hw, hrest⟩ := Memory.wf_cons.1 hm
    simp only [Memory.write]
    split_ifs with hlt hv heq hv
    · exact hm
    · refine Memory.wf_cons.2 ⟨?_, ha, hv, hm⟩
      simp only [List.mem_cons, forall_eq_or_imp]
      exact ⟨hlt, fun c hc => hlt.trans (habove c hc)⟩
    · exact hrest
    · subst heq
      exact Memory.wf_cons.2 ⟨habove, hk, hv, hrest⟩
    · exact Memory.wf_cons.2 ⟨Memory.write_above habove (by omega), hk, hw, ih hrest⟩

/-- Canonical memories that read alike are equal data. -/
theorem Memory.ext_of_wf {m n : Memory} (hm : m.wf) (hn : n.wf) (h : ∀ addr, m.read addr = n.read addr) : m = n := by
  induction m generalizing n with
  | nil =>
    cases n with
    | nil => rfl
    | cons c n =>
      obtain ⟨k, w⟩ := c
      obtain ⟨-, -, hw, -⟩ := Memory.wf_cons.1 hn
      have := h k
      simp only [Memory.read, if_true] at this
      exact absurd this.symm hw
  | cons c m ih =>
    obtain ⟨k, w⟩ := c
    obtain ⟨habove, hk, hw, hrest⟩ := Memory.wf_cons.1 hm
    cases n with
    | nil =>
      have := h k
      simp only [Memory.read, if_true] at this
      exact absurd this hw
    | cons d n =>
      obtain ⟨l, u⟩ := d
      obtain ⟨habove', hl, hu, hrest'⟩ := Memory.wf_cons.1 hn
      have zeroBelow {j : Nat} {z : Byte} {p : Memory} (hp : ∀ c ∈ p, j < c.1) {i : Nat} (hi : i < j) :
          Memory.read ((j, z) :: p) i = 0 :=
        Memory.read_of_all_above (by
          simp only [List.mem_cons, forall_eq_or_imp]
          exact ⟨hi, fun c hc => hi.trans (hp c hc)⟩)
      have hkl : k = l := by
        rcases Nat.lt_trichotomy k l with hlt | heq | hgt
        · have := h k
          rw [zeroBelow habove' hlt] at this
          simp only [Memory.read, if_true] at this
          exact absurd this hw
        · exact heq
        · have := h l
          rw [zeroBelow habove hgt] at this
          simp only [Memory.read, if_true] at this
          exact absurd this.symm hu
      subst hkl
      have hwu : w = u := by simpa [Memory.read] using h k
      subst hwu
      rw [ih hrest hrest' fun addr => ?_]
      by_cases ha : k = addr
      · subst ha
        rw [Memory.read_of_all_above habove, Memory.read_of_all_above habove']
      · simpa [Memory.read, ha] using h addr

/-- `load`'s writes keep the canonical form while they stay inside memory (R232). -/
theorem Memory.wf_loadCells {m : Memory} {base : Nat} {image : List Byte} (hm : m.wf) (h : base + image.length ≤ 256) :
    (loadCells m base image).wf := by
  induction image generalizing m base with
  | nil => exact hm
  | cons v rest ih =>
    simp only [List.length_cons] at h
    exact ih (Memory.wf_write hm (by omega)) (by omega)

/-- Storing a slot keeps the canonical form. -/
theorem Memory.wf_placeSlot {s : State} (slot : Slot) (hm : s.mem.wf) : (s.placeSlot slot).mem.wf := by
  have put {m : Memory} {addr : Nat} {v : Byte} (h : m.wf) :
      Memory.wf (if addr < Config.memSize then m.write addr v else m) := by
    split
    · rename_i ha; exact Memory.wf_write h ha
    · exact h
  exact put (put (put hm))

/-- `MemWrite` keeps the canonical form (R11). -/
theorem Memory.wf_memWrite {s t : State} {addr : Int} {v : Byte} (hm : s.mem.wf) (h : s.memWrite addr v = .ok t) :
    t.mem.wf := by
  simp only [State.memWrite, Config.memSize] at h
  split at h
  · cases h
  · cases h
    exact Memory.wf_write hm (by omega)

/-- The memory after reset is in canonical form (R37). -/
theorem Memory.wf_reset (fl : Flags) : (State.resetWith fl).mem.wf := Memory.wf_nil

end Sys2Proof.Machine
end

