-- ==== Sys2Proof/Laws/PerInstr.lean ====
section
/-! SUPPORT. Laws of every instruction as syntax, one lemma per constructor: the shape of its encoding (30_encoding.md
R70), and that its table row and its operands determine it (R74). -/

namespace Sys2Proof.Laws

/-- The encoding begins with the opcode of the row, has the row's length, and that length is 1, 2 or 3 (R70, R81). -/
def EncodingShape.Statement (i : Instr) : Prop :=
  ∀ opc, (encode opc i).head? = some (opc i.mnemonic) ∧ (encode opc i).length = i.cells ∧ 1 ≤ i.cells ∧ i.cells ≤ 3

theorem EncodingShape.hlt : EncodingShape.Statement .hlt :=
  fun _ => ⟨rfl, rfl, Nat.le_of_ble_eq_true rfl, Nat.le_of_ble_eq_true rfl⟩
theorem EncodingShape.ldi (a imm : Byte) : EncodingShape.Statement (.ldi a imm) :=
  fun _ => ⟨rfl, rfl, Nat.le_of_ble_eq_true rfl, Nat.le_of_ble_eq_true rfl⟩
theorem EncodingShape.prn (a : Byte) : EncodingShape.Statement (.prn a) :=
  fun _ => ⟨rfl, rfl, Nat.le_of_ble_eq_true rfl, Nat.le_of_ble_eq_true rfl⟩
theorem EncodingShape.mul (a b : Byte) : EncodingShape.Statement (.mul a b) :=
  fun _ => ⟨rfl, rfl, Nat.le_of_ble_eq_true rfl, Nat.le_of_ble_eq_true rfl⟩
theorem EncodingShape.add (a b : Byte) : EncodingShape.Statement (.add a b) :=
  fun _ => ⟨rfl, rfl, Nat.le_of_ble_eq_true rfl, Nat.le_of_ble_eq_true rfl⟩
theorem EncodingShape.sub (a b : Byte) : EncodingShape.Statement (.sub a b) :=
  fun _ => ⟨rfl, rfl, Nat.le_of_ble_eq_true rfl, Nat.le_of_ble_eq_true rfl⟩
theorem EncodingShape.div (a b : Byte) : EncodingShape.Statement (.div a b) :=
  fun _ => ⟨rfl, rfl, Nat.le_of_ble_eq_true rfl, Nat.le_of_ble_eq_true rfl⟩
theorem EncodingShape.push (a : Byte) : EncodingShape.Statement (.push a) :=
  fun _ => ⟨rfl, rfl, Nat.le_of_ble_eq_true rfl, Nat.le_of_ble_eq_true rfl⟩
theorem EncodingShape.pop (a : Byte) : EncodingShape.Statement (.pop a) :=
  fun _ => ⟨rfl, rfl, Nat.le_of_ble_eq_true rfl, Nat.le_of_ble_eq_true rfl⟩
theorem EncodingShape.call (a : Byte) : EncodingShape.Statement (.call a) :=
  fun _ => ⟨rfl, rfl, Nat.le_of_ble_eq_true rfl, Nat.le_of_ble_eq_true rfl⟩
theorem EncodingShape.ret : EncodingShape.Statement .ret :=
  fun _ => ⟨rfl, rfl, Nat.le_of_ble_eq_true rfl, Nat.le_of_ble_eq_true rfl⟩
theorem EncodingShape.cmp (a b : Byte) : EncodingShape.Statement (.cmp a b) :=
  fun _ => ⟨rfl, rfl, Nat.le_of_ble_eq_true rfl, Nat.le_of_ble_eq_true rfl⟩
theorem EncodingShape.jmp (a : Byte) : EncodingShape.Statement (.jmp a) :=
  fun _ => ⟨rfl, rfl, Nat.le_of_ble_eq_true rfl, Nat.le_of_ble_eq_true rfl⟩
theorem EncodingShape.jeq (a : Byte) : EncodingShape.Statement (.jeq a) :=
  fun _ => ⟨rfl, rfl, Nat.le_of_ble_eq_true rfl, Nat.le_of_ble_eq_true rfl⟩
theorem EncodingShape.jne (a : Byte) : EncodingShape.Statement (.jne a) :=
  fun _ => ⟨rfl, rfl, Nat.le_of_ble_eq_true rfl, Nat.le_of_ble_eq_true rfl⟩

/-- The row and the operand cells build the instruction back, whatever fills the cells it does not use (R70, R77). -/
def BuildOfOperands.Statement (i : Instr) : Prop :=
  ∀ rest : List Byte, i.mnemonic.build ((i.operands ++ rest).getD 0 0) ((i.operands ++ rest).getD 1 0) = i

theorem BuildOfOperands.hlt : BuildOfOperands.Statement .hlt := fun _ => rfl
theorem BuildOfOperands.ldi (a imm : Byte) : BuildOfOperands.Statement (.ldi a imm) := fun _ => rfl
theorem BuildOfOperands.prn (a : Byte) : BuildOfOperands.Statement (.prn a) := fun _ => rfl
theorem BuildOfOperands.mul (a b : Byte) : BuildOfOperands.Statement (.mul a b) := fun _ => rfl
theorem BuildOfOperands.add (a b : Byte) : BuildOfOperands.Statement (.add a b) := fun _ => rfl
theorem BuildOfOperands.sub (a b : Byte) : BuildOfOperands.Statement (.sub a b) := fun _ => rfl
theorem BuildOfOperands.div (a b : Byte) : BuildOfOperands.Statement (.div a b) := fun _ => rfl
theorem BuildOfOperands.push (a : Byte) : BuildOfOperands.Statement (.push a) := fun _ => rfl
theorem BuildOfOperands.pop (a : Byte) : BuildOfOperands.Statement (.pop a) := fun _ => rfl
theorem BuildOfOperands.call (a : Byte) : BuildOfOperands.Statement (.call a) := fun _ => rfl
theorem BuildOfOperands.ret : BuildOfOperands.Statement .ret := fun _ => rfl
theorem BuildOfOperands.cmp (a b : Byte) : BuildOfOperands.Statement (.cmp a b) := fun _ => rfl
theorem BuildOfOperands.jmp (a : Byte) : BuildOfOperands.Statement (.jmp a) := fun _ => rfl
theorem BuildOfOperands.jeq (a : Byte) : BuildOfOperands.Statement (.jeq a) := fun _ => rfl
theorem BuildOfOperands.jne (a : Byte) : BuildOfOperands.Statement (.jne a) := fun _ => rfl

end Sys2Proof.Laws
end

