-- ==== Sys2Proof/Tests/Slice0.lean ====
section
/-! SUPPORT. The model's own tests: well-formedness, decoding of words written out from spec/30_encoding.md, single steps and
host operations with the results of spec/95_test_vectors.md (V and H numbers), and a witness for the hypotheses of each
statement. -/

namespace Sys2Proof.Tests

open Sys2Proof.Machine

/-! ### Helpers -/

/-- A state at reset values but for the program counter, the cells from it on, the registers and the flags. -/
def tState (pc : Nat) (cells : List Byte) (x : Vector Byte 8) (fl : Flags) : State :=
  { State.resetWith fl with mem := loadCells [] pc cells, pc := pc, x := x }

/-- The reset registers. -/
def x0 : Vector Byte 8 := #v[0, 0, 0, 0, 0, 0, 0, 255]

/-- One more cell set. -/
def withCell (s : State) (addr : Nat) (v : Byte) : State := s.setMem (s.mem.write addr v)

/-- The step from `s` answers a next state with this property. -/
def after (s : State) (p : State → Bool) : Bool :=
  match step s with
  | .next t => p t
  | _ => false

/-- The instruction run in `s` answers a next state with this property. -/
def execAfter (i : Instr) (s : State) (p : State → Bool) : Bool :=
  match exec i s with
  | .next t => p t
  | _ => false

/-- The step from `s` takes the fault `k` and changes nothing else (R201, R202). -/
def faults (s : State) (k : Fault) : Bool := after s fun t => decide (t = s.enterFault k)

/-! ### Well-formedness -/

theorem test_wellFormed_refuses_index_a :
    (Instr.ldi 8 0).wellFormed = false ∧ (Instr.prn 8).wellFormed = false ∧ (Instr.mul 8 0).wellFormed = false ∧
    (Instr.add 8 0).wellFormed = false ∧ (Instr.sub 8 0).wellFormed = false ∧ (Instr.div 8 0).wellFormed = false ∧
    (Instr.push 8).wellFormed = false ∧ (Instr.pop 8).wellFormed = false ∧ (Instr.call 8).wellFormed = false ∧
    (Instr.cmp 8 0).wellFormed = false ∧ (Instr.jmp 8).wellFormed = false ∧ (Instr.jeq 8).wellFormed = false ∧
    (Instr.jne 255).wellFormed = false := by decide

theorem test_wellFormed_refuses_index_b :
    (Instr.mul 0 8).wellFormed = false ∧ (Instr.add 0 8).wellFormed = false ∧ (Instr.sub 0 8).wellFormed = false ∧
    (Instr.div 0 8).wellFormed = false ∧ (Instr.cmp 0 8).wellFormed = false := by decide

theorem test_wellFormed_accepts :
    Instr.hlt.wellFormed = true ∧ Instr.ret.wellFormed = true ∧ (Instr.ldi 7 255).wellFormed = true ∧
    (Instr.cmp 7 7).wellFormed = true ∧ (Instr.jne 7).wellFormed = true := by decide

/-! ### Decoding: one word per row, written out from R74 and R70 -/

theorem test_decode_hlt : decodeSlot defaultOpc ⟨0b00000001, 0xEE, 0xDD⟩ = .ok .hlt := by decide
theorem test_decode_ldi : decodeSlot defaultOpc ⟨0b10000010, 0b00000011, 0b11111111⟩ = .ok (.ldi 3 255) := by decide
theorem test_decode_prn : decodeSlot defaultOpc ⟨0b01000111, 0b00000111, 0xFF⟩ = .ok (.prn 7) := by decide
theorem test_decode_mul : decodeSlot defaultOpc ⟨0b10100010, 0b00000001, 0b00000010⟩ = .ok (.mul 1 2) := by decide
theorem test_decode_add : decodeSlot defaultOpc ⟨0b10100000, 0b00000001, 0b00000010⟩ = .ok (.add 1 2) := by decide
theorem test_decode_sub : decodeSlot defaultOpc ⟨0b10100001, 0b00000001, 0b00000010⟩ = .ok (.sub 1 2) := by decide
theorem test_decode_div : decodeSlot defaultOpc ⟨0b10100011, 0b00000001, 0b00000010⟩ = .ok (.div 1 2) := by decide
theorem test_decode_push : decodeSlot defaultOpc ⟨0b01000101, 0b00000110, 0x54⟩ = .ok (.push 6) := by decide
theorem test_decode_pop : decodeSlot defaultOpc ⟨0b01000110, 0b00000101, 0x54⟩ = .ok (.pop 5) := by decide
theorem test_decode_call : decodeSlot defaultOpc ⟨0b01010000, 0b00000010, 0x54⟩ = .ok (.call 2) := by decide
theorem test_decode_ret : decodeSlot defaultOpc ⟨0b00010001, 0xEE, 0xDD⟩ = .ok .ret := by decide
theorem test_decode_cmp : decodeSlot defaultOpc ⟨0b10100111, 0b00000001, 0b00000010⟩ = .ok (.cmp 1 2) := by decide
theorem test_decode_jmp : decodeSlot defaultOpc ⟨0b01010100, 0b00000100, 0x54⟩ = .ok (.jmp 4) := by decide
theorem test_decode_jeq : decodeSlot defaultOpc ⟨0b01010101, 0b00001000, 0x54⟩ = .ok (.jeq 8) := by decide
theorem test_decode_jne : decodeSlot defaultOpc ⟨0b01010110, 0b11111111, 0x54⟩ = .ok (.jne 255) := by decide

/-- V7 to V9: 0x00, 0xFF and 0x8F are no opcodes. -/
theorem test_decode_unknown :
    decodeSlot defaultOpc ⟨0x00, 1, 2⟩ = .error (.unknownOpcode 0x00) ∧
    decodeSlot defaultOpc ⟨0xFF, 1, 2⟩ = .error (.unknownOpcode 0xFF) ∧
    decodeSlot defaultOpc ⟨0x8F, 1, 2⟩ = .error (.unknownOpcode 0x8F) := by decide

/-- The end of P3's image, read by a disassembler (R81): `ADD R0,R1`, then `RET`. -/
theorem test_decodeBytes :
    decodeBytes defaultOpc [0xA0, 0x00, 0x01, 0x11] = .ok (.add 0 1, [0x11]) ∧
    decodeBytes defaultOpc [0x11] = .ok (.ret, []) ∧
    decodeBytes defaultOpc [0xA0, 0x00] = .error .truncated ∧
    decodeBytes defaultOpc [0x00] = .error (.unknownOpcode 0x00) := by decide

/-- A word of the opcode table, placed where the first step after reset fetches, is what runs: `LDI R3,255`. -/
theorem test_withFetchWord :
    decodeTableWord 24 0xFF0382 = some (.ldi 3 255) ∧
    after (State.reset.withFetchWord 24 0xFF0382) (fun t => decide (t.x[3] = 255 ∧ t.pc = 3)) = true := by decide

/-! ### Single steps (spec/95_test_vectors.md, Part 2) -/

/-- V3: HLT at the last address at which anything executes. -/
theorem test_hlt : after (tState 253 [0x01, 0, 0] x0 .none)
    (fun t => decide (t = (tState 253 [0x01, 0, 0] x0 .none).halt)) = true := by decide

/-- V4: HLT at 254 faults. -/
theorem test_hlt_at_254 : faults (tState 254 [0x01, 0] x0 .none) (.addressOutOfRange 256) = true := by decide

/-- V8 and V10: an unknown opcode, and one in an incomplete slot. -/
theorem test_unknown_opcode :
    faults (tState 10 [0xFF, 1, 2] x0 .none) (.unknownOpcode 255 10) = true ∧
    faults (tState 254 [0xFF, 0] x0 .none) (.addressOutOfRange 256) = true := by decide

/-- V13: LDI at 253 leaves `pc` at 256. -/
theorem test_ldi_at_253 : after (tState 253 [0x82, 1, 9] x0 .none)
    (fun t => decide (t.pc = 256 ∧ t.x = #v[0, 9, 0, 0, 0, 0, 0, 255] ∧ t.running = true)) = true := by decide

/-- V15. -/
theorem test_ldi_index_8 : faults (tState 0 [0x82, 8, 1] x0 .none) (.addressOutOfRange 8) = true := by decide

/-- V18. -/
theorem test_prn : after (tState 3 [0x47, 0, 0xFF] #v[200, 0, 0, 0, 0, 0, 0, 255] .none)
    (fun t => decide (t.out = [200] ∧ t.pc = 5)) = true := by decide

/-- V20: nothing emitted. -/
theorem test_prn_index_9 : faults (tState 0 [0x47, 9] x0 .none) (.addressOutOfRange 9) = true := by decide

/-- V32: 600 mod 256. -/
theorem test_mul_wraps : after (tState 0 [0xA2, 0, 1] #v[200, 3, 0, 0, 0, 0, 0, 255] .none)
    (fun t => decide (t.x[0] = 88 ∧ t.x[1] = 3 ∧ t.pc = 3)) = true := by decide

/-- V35: both operands are read before the write. -/
theorem test_mul_same : after (tState 0 [0xA2, 1, 1] #v[0, 17, 0, 0, 0, 0, 0, 255] .none)
    (fun t => decide (t.x[1] = 33)) = true := by decide

/-- V22 and V25: the sum wraps and the flags are untouched. -/
theorem test_add_wraps : after (tState 0 [0xA0, 0, 1] #v[200, 100, 0, 0, 0, 0, 0, 255] .equal)
    (fun t => decide (t.x[0] = 44 ∧ t.fl = .equal)) = true := by decide

/-- V46: index a before index b. -/
theorem test_add_both_bad : faults (tState 0 [0xA0, 9, 8] x0 .none) (.addressOutOfRange 9) = true := by decide

/-- V28: -4 mod 256. -/
theorem test_sub_wraps : after (tState 0 [0xA1, 1, 2] #v[0, 5, 9, 0, 0, 0, 0, 255] .none)
    (fun t => decide (t.x[1] = 252)) = true := by decide

/-- V30: ALU arithmetic on SP wraps. -/
theorem test_sub_sp : after (tState 0 [0xA1, 7, 1] #v[0, 1, 0, 0, 0, 0, 0, 0] .none)
    (fun t => decide (t.x[7] = 255 ∧ t.running = true)) = true := by decide

/-- V37. -/
theorem test_div : after (tState 0 [0xA3, 0, 1] #v[7, 2, 0, 0, 0, 0, 0, 255] .none)
    (fun t => decide (t.x[0] = 3)) = true := by decide

/-- V42 and V44: a zero divisor, and an index before the divisor. -/
theorem test_div_faults :
    faults (tState 3 [0xA3, 0, 1] #v[7, 0, 0, 0, 0, 0, 0, 255] .none) .divisionByZero = true ∧
    faults (tState 0 [0xA3, 9, 1] x0 .none) (.addressOutOfRange 9) = true := by decide

/-- V48 and V52: the lowest legal push, and PUSH R7. -/
theorem test_push :
    after (tState 10 [0x45, 0] #v[7, 0, 0, 0, 0, 0, 0, 1] .none)
      (fun t => decide (t.pc = 12 ∧ t.x[7] = 0 ∧ t.mem.read 0 = 7)) = true ∧
    after (tState 10 [0x45, 7] x0 .none) (fun t => decide (t.x[7] = 254 ∧ t.mem.read 254 = 254)) = true := by decide

/-- V50 and V51: SP range before index; the index. -/
theorem test_push_faults :
    faults (tState 10 [0x45, 9] #v[0, 0, 0, 0, 0, 0, 0, 0] .none) (.addressOutOfRange (-1)) = true ∧
    faults (tState 10 [0x45, 9] x0 .none) (.addressOutOfRange 9) = true := by decide

/-- V53 and V56: POP R0, and POP R7. -/
theorem test_pop :
    after (withCell (tState 8 [0x46, 0] #v[0, 0, 0, 0, 0, 0, 0, 254] .none) 254 171)
      (fun t => decide (t.pc = 10 ∧ t.x[0] = 171 ∧ t.x[7] = 255 ∧ t.mem.read 254 = 171)) = true ∧
    after (withCell (tState 8 [0x46, 7] #v[0, 0, 0, 0, 0, 0, 0, 100] .none) 100 50)
      (fun t => decide (t.x[7] = 51)) = true := by decide

/-- V54, V57 and V58: underflow; the range test of POP R7 is on the loaded value alone. -/
theorem test_pop_range :
    faults (withCell (tState 8 [0x46, 0] x0 .none) 255 5) (.addressOutOfRange 256) = true ∧
    faults (withCell (tState 8 [0x46, 7] #v[0, 0, 0, 0, 0, 0, 0, 100] .none) 100 255) (.addressOutOfRange 256) = true ∧
    after (withCell (tState 8 [0x46, 7] x0 .none) 255 9) (fun t => decide (t.x[7] = 10)) = true := by decide

/-- V60 and V63: the largest return address, and CALL R7. -/
theorem test_call :
    after (tState 253 [0x50, 2, 0] #v[0, 0, 0, 0, 0, 0, 0, 100] .none)
      (fun t => decide (t.pc = 0 ∧ t.x[7] = 99 ∧ t.mem.read 99 = 255)) = true ∧
    after (tState 20 [0x50, 7] #v[0, 0, 0, 0, 0, 0, 0, 200] .none)
      (fun t => decide (t.pc = 199 ∧ t.x[7] = 199 ∧ t.mem.read 199 = 22)) = true := by decide

/-- V61 and V62. -/
theorem test_call_faults :
    faults (tState 9 [0x50, 2] #v[0, 0, 14, 0, 0, 0, 0, 0] .none) (.addressOutOfRange (-1)) = true ∧
    faults (tState 9 [0x50, 8] x0 .none) (.addressOutOfRange 8) = true := by decide

/-- V67: RET pops cell 0. -/
theorem test_ret : after (withCell (tState 17 [0x11] #v[0, 0, 0, 0, 0, 0, 0, 0] .none) 0 200)
    (fun t => decide (t.pc = 200 ∧ t.x[7] = 1)) = true := by decide

/-- V66. -/
theorem test_ret_underflow : faults (withCell (tState 17 [0x11] x0 .none) 255 11) (.addressOutOfRange 256) = true := by
  decide

/-- V69 and V71: Less; unsigned Greater. -/
theorem test_cmp :
    after (tState 9 [0xA7, 0, 1] #v[5, 6, 0, 0, 0, 0, 0, 255] .none) (fun t => decide (t.pc = 12 ∧ t.fl = .less)) = true ∧
    after (tState 0 [0xA7, 0, 1] #v[200, 100, 0, 0, 0, 0, 0, 255] .less) (fun t => decide (t.fl = .greater)) = true := by
  decide

/-- V73 and V74. -/
theorem test_cmp_equal_and_fault :
    after (tState 0 [0xA7, 3, 3] #v[0, 0, 0, 42, 0, 0, 0, 255] .greater) (fun t => decide (t.fl = .equal)) = true ∧
    faults (tState 0 [0xA7, 0, 8] x0 .greater) (.addressOutOfRange 8) = true := by decide

/-- V77: the target is not checked. -/
theorem test_jmp : after (tState 5 [0x54, 1] #v[0, 254, 0, 0, 0, 0, 0, 255] .none)
    (fun t => decide (t.pc = 254 ∧ t.running = true)) = true := by decide

/-- V78. -/
theorem test_jmp_index_8 : faults (tState 5 [0x54, 8] x0 .none) (.addressOutOfRange 8) = true := by decide

/-- V79 and V82: taken on Equal, not on no flag. -/
theorem test_jeq :
    after (tState 12 [0x55, 2] #v[0, 0, 17, 0, 0, 0, 0, 255] .equal) (fun t => decide (t.pc = 17)) = true ∧
    after (tState 12 [0x55, 2] #v[0, 0, 17, 0, 0, 0, 0, 255] .none) (fun t => decide (t.pc = 14)) = true := by decide

/-- V83 and V84: the index is tested only when taken. -/
theorem test_jeq_index_9 :
    after (tState 12 [0x55, 9] x0 .less) (fun t => decide (t.pc = 14 ∧ t.running = true)) = true ∧
    faults (tState 12 [0x55, 9] x0 .equal) (.addressOutOfRange 9) = true := by decide

/-- V87 and V88: taken on no flag, not on Equal. -/
theorem test_jne :
    after (tState 24 [0x56, 4] #v[0, 0, 0, 0, 15, 0, 0, 255] .none) (fun t => decide (t.pc = 15)) = true ∧
    after (tState 24 [0x56, 4] #v[0, 0, 0, 0, 15, 0, 0, 255] .equal) (fun t => decide (t.pc = 26)) = true := by decide

/-- V89 and V90. -/
theorem test_jne_index_9 :
    after (tState 24 [0x56, 9] x0 .equal) (fun t => decide (t.pc = 26 ∧ t.running = true)) = true ∧
    faults (tState 24 [0x56, 9] x0 .greater) (.addressOutOfRange 9) = true := by decide

/-! ### Host operations (Part 3) -/

/-- P1's image. -/
def imageP1 : List Byte := [0x82, 0x00, 0x08, 0x47, 0x00, 0x01]

/-- H2: the image stands from address 0 on, in canonical form with its zero cells unlisted. -/
theorem test_load : (hostLoad imageP1 (State.resetWith .none)).toOption.map (fun t => (t.mem, t.pc, t.running)) =
    some ([(0, 0x82), (2, 0x08), (3, 0x47), (5, 0x01)], 0, true) := by decide

/-- H6 and H8: a stopped core takes no step and reports its stop again. -/
theorem test_step_when_stopped :
    (match hostStep (tState 5 [0x01] x0 .none).halt with
      | .next (r, t) => decide (r = .halted ∧ t = (tState 5 [0x01] x0 .none).halt)
      | _ => false) = true ∧
    (match hostStep ((tState 3 [0xA3, 0, 1] x0 .none).enterFault .divisionByZero) with
      | .next (r, t) => decide (r = .fault .divisionByZero ∧ t = (tState 3 [0xA3, 0, 1] x0 .none).enterFault .divisionByZero)
      | _ => false) = true := by decide

/-- H9, H10 and H11. -/
theorem test_trace :
    (tState 0 imageP1 x0 .none).trace = ⟨0, some 130, some 0, some 8, x0⟩ ∧
    (tState 254 [1, 7] x0 .none).trace = ⟨254, some 1, some 7, none, x0⟩ ∧
    (tState 256 [] x0 .none).trace = ⟨256, none, none, none, x0⟩ := by decide

/-! ### Witnesses: for each statement with hypotheses, values that meet them; for each clause, at a boundary -/

/-- An `OPC` with distinct values: the default one. For DecodeOfEncodeIsInstruction and
SlotDecodesIffItBeginsWithEncoding. -/
theorem witness_distinct_opcodes : ∀ m n, defaultOpc m = defaultOpc n → m = n := defaultOpc_injective

theorem witness_UnusedSlotCellsAreIgnored :
    (decodeSlot defaultOpc ⟨0x01, 0xEE, 0xDD⟩ = .ok .hlt ∧ Instr.hlt.cells = 1) ∧
    (decodeSlot defaultOpc ⟨0x45, 0x07, 0xFF⟩ = .ok (.push 7) ∧ (Instr.push 7).cells = 2) := by decide

/-- An opcode cell without a row, for IllegalOpcodesAreRejected. -/
theorem witness_IllegalOpcodesAreRejected : ∀ m, defaultOpc m ≠ 0xFF := by intro m; cases m <;> decide

theorem witness_StepRunsDecodedInstruction :
    let s := tState 253 [0x82, 1, 9] x0 .none
    s.running = true ∧ s.pc ≤ 253 ∧
    decodeSlot defaultOpc ⟨s.mem.read s.pc, s.mem.read (s.pc + 1), s.mem.read (s.pc + 2)⟩ = .ok (.ldi 1 9) := by decide

theorem witness_FetchReadsWholeSlotOrFaults :
    (tState 253 [] x0 .none).pc ≤ 253 ∧
    ((tState 254 [] x0 .none).running = true ∧ 254 ≤ (tState 254 [] x0 .none).pc ∧ (tState 254 [] x0 .none).pc ≤ 256) ∧
    ((tState 256 [] x0 .none).running = true ∧ 254 ≤ (tState 256 [] x0 .none).pc ∧ (tState 256 [] x0 .none).pc ≤ 256) := by
  decide

theorem witness_UnknownOpcodeFaults :
    let s := tState 253 [0, 0, 0] x0 .none
    s.running = true ∧ s.pc ≤ 253 ∧ ∀ m, defaultOpc m ≠ s.mem.read s.pc := by
  refine ⟨by decide, by decide, fun m => ?_⟩
  cases m <;> decide

theorem witness_FirstFailingTestIsReported :
    (tState 0 [] #v[0, 0, 0, 0, 0, 0, 0, 0] .none).sp = 0 ∧ 8 ≤ (8 : Byte).toNat ∧ (7 : Byte).toNat < 8 := by decide

/-- A step that stops by HLT and one that stops by a fault. -/
theorem witness_StoppingStepChangesOnlyStatus :
    ((tState 0 [0x01] x0 .none).running = true ∧
      after (tState 0 [0x01] x0 .none) (fun t => decide (t.running = false ∧ t.fault = none)) = true) ∧
    ((tState 0 [0x00] x0 .none).running = true ∧
      after (tState 0 [0x00] x0 .none) (fun t => decide (t.running = false ∧ t.fault ≠ none)) = true) := by decide

theorem witness_ResetLeavesResetValues : (255 : Nat) < 256 ∧ (6 : Fin 8) ≠ 7 := by decide

theorem witness_StepKeepsInvariant :
    (tState 253 [0x82, 1, 9] x0 .none).Inv ∧ after (tState 253 [0x82, 1, 9] x0 .none) (fun _ => true) = true := by decide

/-- A reachable state that is about to execute CALL, and one about to execute CMP: both steps complete. One that holds a
fault, and one with a flag set, which takes a step and a `load`. -/
theorem witness_ReachableStatesMeetInvariants :
    (∃ s, Reachable s ∧ s.running = true ∧ s.mem.read s.pc = defaultOpc .call ∧ after s (fun t => t.running) = true) ∧
    (∃ s, Reachable s ∧ s.running = true ∧ after s (fun t => t.running) = true ∧
      decodeSlot defaultOpc ⟨s.mem.read s.pc, s.mem.read (s.pc + 1), s.mem.read (s.pc + 2)⟩ = .ok (.cmp 0 1)) ∧
    (∃ s, Reachable s ∧ s.fault ≠ none) ∧
    (∃ s, Reachable s ∧ s.fl ≠ .none ∧ after s (fun _ => true) = true ∧ (hostLoad [0x01] s).toOption ≠ none) := by
  refine ⟨⟨_, .load [0x50, 0] (.reset .none) rfl, by decide, by decide, by decide⟩,
    ⟨_, .load [0xA7, 0, 1] (.reset .none) rfl, by decide, by decide, by decide⟩,
    ⟨_, .step (.reset .none) rfl, by decide⟩, ⟨_, .reset .less, by decide, by decide, by decide⟩⟩

theorem witness_ProgramCounterRange :
    (tState 253 [0x82, 1, 9] x0 .none).running = true ∧ (tState 253 [0x82, 1, 9] x0 .none).pc ≤ 256 ∧
    after (tState 253 [0x82, 1, 9] x0 .none) (fun t => decide (t.running = true ∧ t.pc = 256)) = true ∧
    (tState 253 [0x82, 1, 9] x0 .none).pc ≠ 256 := by decide

theorem witness_HltStopsTheCore :
    ((tState 253 [0x01] x0 .none).running = true ∧ (tState 253 [0x01] x0 .none).mem.read 253 = 0x01) ∧
    ((tState 254 [0x01] x0 .none).running = true ∧ (tState 254 [0x01] x0 .none).mem.read 254 = 0x01) := by decide

/-- The index clauses of every instruction statement: the last register, and the first and the last index that is none. -/
theorem witness_register_index : (7 : Byte).toNat < 8 ∧ 8 ≤ (8 : Byte).toNat ∧ 8 ≤ (255 : Byte).toNat := by decide

theorem witness_AluComputesItsOperations : (0 : Byte) = 0 ∧ (1 : Byte) ≠ 0 := by decide

theorem witness_UnsupportedAluOperationIsUnreachable :
    (tState 0 [0x01] x0 .none).fault ≠ some (.unsupportedAluOperation .add) ∧
    after (tState 0 [0x01] x0 .none) (fun _ => true) = true := by decide

theorem witness_DivGivesQuotientOrFaults :
    (tState 0 [] #v[7, 1, 0, 0, 0, 0, 0, 255] .none).getReg ⟨(1 : Byte).toNat, by decide⟩ ≠ 0 ∧
    (tState 0 [] x0 .none).getReg ⟨(1 : Byte).toNat, by decide⟩ = 0 := by decide

theorem witness_StackPointerRangeLaw :
    ((0 : Int) ≤ 0 ∧ (0 : Int) ≤ 255) ∧ ((0 : Int) ≤ 255 ∧ (255 : Int) ≤ 255) ∧ (-1 : Int) < 0 ∧ (255 : Int) < 256 ∧
    (tState 0 [] #v[0, 1, 0, 0, 0, 0, 0, 0] .none).sp = 0 ∧
    ((tState 0 [] x0 .none).sp = 255 ∧ (6 : Byte).toNat < 7) ∧
    (tState 0 [] #v[0, 1, 0, 0, 0, 0, 0, 0] .none).getReg ⟨(1 : Byte).toNat, by decide⟩ = 1 := by decide

/-- PUSH and CALL: SP at 0, and SP at 1 with each index clause; `pc` at its last value. -/
theorem witness_PushStoresBelowStackPointer_and_CallPushesReturnAddressAndJumps :
    (tState 0 [] #v[0, 0, 0, 0, 0, 0, 0, 0] .none).sp = 0 ∧
    ((tState 253 [] #v[0, 0, 0, 0, 0, 0, 0, 1] .none).sp ≠ 0 ∧ 8 ≤ (8 : Byte).toNat) ∧
    ((tState 253 [] #v[0, 0, 0, 0, 0, 0, 0, 1] .none).sp ≠ 0 ∧ (7 : Byte).toNat < 8 ∧
      (tState 253 [] #v[0, 0, 0, 0, 0, 0, 0, 1] .none).pc ≤ 253) := by decide

/-- POP: the base at 255 and at 254, for another register and for register 7. -/
theorem witness_PopLoadsFromStackPointer :
    let base (s : State) (a : Byte) : Byte := if a = 7 then s.mem.read s.sp.toNat else s.sp
    ((6 : Byte).toNat < 8 ∧ base (tState 0 [] x0 .none) 6 = 255) ∧
    ((6 : Byte).toNat < 8 ∧ base (tState 0 [] #v[0, 0, 0, 0, 0, 0, 0, 254] .none) 6 ≠ 255) ∧
    ((7 : Byte).toNat < 8 ∧ base (withCell (tState 0 [] x0 .none) 255 255) 7 = 255) ∧
    ((7 : Byte).toNat < 8 ∧ base (withCell (tState 0 [] x0 .none) 255 254) 7 ≠ 255) := by decide

theorem witness_PushPopOfStackPointer :
    let s := withCell (tState 0 [] x0 .none) 255 254
    let u := withCell (tState 0 [] x0 .none) 255 255
    (s.mem.wf ∧ s.sp ≠ 0 ∧ (s.mem.read s.sp.toNat).toNat ≤ 254) ∧ (u.mem.wf ∧ u.mem.read u.sp.toNat = 255) := by decide

theorem witness_CallOfStackPointerJumpsToReturnCell :
    let s := tState 253 [0x50, 7] #v[0, 0, 0, 0, 0, 0, 0, 1] .none
    s.mem.wf ∧ s.pc ≤ 253 ∧ s.sp ≠ 0 := by decide

theorem witness_RetPopsProgramCounter :
    (tState 0 [] x0 .none).sp = 255 ∧ (tState 0 [] #v[0, 0, 0, 0, 0, 0, 0, 254] .none).sp ≠ 255 := by decide

/-- `u` is the state the CALL left: SP and the pushed cell agree by themselves. -/
theorem witness_RetReturnsBehindItsCall :
    let s := tState 253 [0x50, 2] #v[0, 0, 14, 0, 0, 0, 0, 1] .none
    s.mem.wf ∧ s.pc ≤ 253 ∧ s.running = true ∧ execAfter (.call 2) s (fun t => t.running) = true := by decide

/-- `u` is the state the PUSH left. -/
theorem witness_PopRestoresPushedValue :
    let s := tState 0 [0x45, 6] #v[0, 0, 0, 0, 0, 0, 171, 1] .none
    (6 : Byte).toNat < 7 ∧ s.mem.wf ∧ s.running = true ∧ execAfter (.push 6) s (fun t => t.running) = true := by decide

/-- Three PUSHes whose store is the opcode, the operand_b and the operand_a cell of the next slot, and a CALL R7, whose store
is the cell it jumps to; each next fetch succeeds. -/
theorem witness_NextFetchSeesStackWrite :
    let s := tState 3 [0x45, 0] #v[9, 0, 0, 0, 0, 0, 0, 6] .none
    let u := tState 3 [0x45, 0] #v[9, 0, 0, 0, 0, 0, 0, 8] .none
    let v := tState 3 [0x45, 0] #v[9, 0, 0, 0, 0, 0, 0, 7] .none
    let w := tState 20 [0x50, 7] #v[0, 0, 0, 0, 0, 0, 0, 200] .none
    (s.mem.wf ∧ s.running = true ∧ s.pushSlot = .ok 5 ∧ (s.setReg 7 5).getReg ⟨(0 : Byte).toNat, by decide⟩ = 9 ∧
      execAfter (.push 0) s (fun t => decide (t.running = true ∧ t.pc = 5 ∧ t.fetch.toOption ≠ none)) = true) ∧
    (u.mem.wf ∧ u.running = true ∧ u.pushSlot = .ok 7 ∧ (u.setReg 7 7).getReg ⟨(0 : Byte).toNat, by decide⟩ = 9 ∧
      execAfter (.push 0) u (fun t => decide (t.running = true ∧ t.pc + 2 = 7 ∧ t.fetch.toOption ≠ none)) = true) ∧
    (v.mem.wf ∧ v.running = true ∧ v.pushSlot = .ok 6 ∧ (v.setReg 7 6).getReg ⟨(0 : Byte).toNat, by decide⟩ = 9 ∧
      execAfter (.push 0) v (fun t => decide (t.running = true ∧ t.pc + 1 = 6 ∧ t.fetch.toOption ≠ none)) = true) ∧
    (w.mem.wf ∧ w.running = true ∧ w.pc ≤ 253 ∧ w.pushSlot = .ok 199 ∧
      execAfter (.call 7) w (fun t => decide (t.running = true ∧ t.pc = 199 ∧ t.fetch.toOption ≠ none)) = true) := by decide

theorem witness_JeqJumpsIfEqual_and_JneJumpsIfNotEqual :
    (tState 0 [] x0 .equal).fl = .equal ∧ (tState 0 [] x0 .none).fl ≠ .equal := by decide

theorem witness_JumpToItselfNeverEnds :
    let s := tState 253 [0x54, 1] #v[0, 253, 0, 0, 0, 0, 0, 255] .none
    ∃ ha : (s.mem.read (s.pc + 1)).toNat < 8, s.running = true ∧ s.pc ≤ 253 ∧ s.mem.read s.pc = 0x54 ∧
      (s.getReg ⟨(s.mem.read (s.pc + 1)).toNat, ha⟩).toNat = s.pc := ⟨by decide, by decide⟩

/-- For the frames and the rules over all instructions: each instruction answers a next state in every state. -/
theorem witness_frames : ∀ (i : Instr) (s : State), ∃ t, exec i s = .next t := exec_answers_next

/-- StackStoresFrame's clauses on the address: a slot, and a fault. -/
theorem witness_StackStoresFrame :
    ((tState 0 [] #v[0, 0, 0, 0, 0, 0, 0, 1] .none).mem.wf ∧
      (tState 0 [] #v[0, 0, 0, 0, 0, 0, 0, 1] .none).pushSlot = .ok 0) ∧
    ((tState 0 [] #v[0, 0, 0, 0, 0, 0, 0, 0] .none).mem.wf ∧
      (tState 0 [] #v[0, 0, 0, 0, 0, 0, 0, 0] .none).pushSlot = .error (.addressOutOfRange (-1))) := by decide

theorem witness_RegistersAreAccessedByTheTable :
    (0 : Fin 8).val ∉ registersWritten (.push 1) ∧ (0 : Fin 8).val ∉ registersRead (.push 1) ∧
    ((1 : Fin 8).val ∉ registersRead (.ldi 1 9) ∧ (1 : Fin 8).val ∈ registersWritten (.ldi 1 9)) := by decide

/-- A completed CMP, a faulting CMP, and a JEQ in two states that are not `E`. -/
theorem witness_FlagsAreReadOnlyByConditionalJumps :
    ((∀ a, Instr.cmp 0 1 ≠ .jeq a ∧ Instr.cmp 0 1 ≠ .jne a) ∧ (0 : Byte).toNat < 8 ∧ (1 : Byte).toNat < 8 ∧
      execAfter (.cmp 0 1) (tState 0 [] x0 .none) (fun _ => true) = true) ∧
    ((∀ a b, Instr.cmp 0 8 = .cmp a b → 8 ≤ a.toNat ∨ 8 ≤ b.toNat) ∧
      execAfter (.cmp 0 8) (tState 0 [] x0 .none) (fun _ => true) = true) ∧
    ((∀ a b, Instr.jeq 2 = .cmp a b → 8 ≤ a.toNat ∨ 8 ≤ b.toNat) ∧ (Flags.less = .equal ↔ Flags.greater = .equal) ∧
      execAfter (.jeq 2) (tState 0 [] x0 .less) (fun _ => true) = true) := by
  refine ⟨⟨by simp, by decide, by decide, by decide⟩, ⟨fun a b h => ?_, by decide⟩, by simp, by decide, by decide⟩
  cases h
  decide

theorem witness_OutputIsAppendOnlyAndUnread :
    (∀ a, Instr.hlt ≠ .prn a) ∧ (7 : Byte).toNat < 8 ∧ execAfter (.prn 7) (tState 0 [] x0 .none) (fun _ => true) = true := by
  refine ⟨by simp, by decide, by decide⟩

theorem witness_OnlyStackStoresChangeMemory :
    let s := tState 10 [0x45, 0] #v[7, 0, 0, 0, 0, 0, 0, 1] .none
    s.mem.wf ∧ s.running = true ∧ after s (fun t => decide (t.mem.read 0 ≠ s.mem.read 0)) = true := by decide

theorem witness_FlagStateMachine :
    after (tState 0 [0xA7, 0, 1] x0 .none) (fun t => decide (t.fl ≠ .none)) = true ∧
    ((0 : Byte).toNat < 8 ∧ (7 : Byte).toNat < 8) ∧
    ((∀ a b, Instr.jmp 2 ≠ .cmp a b) ∧ execAfter (.jmp 2) (tState 0 [] x0 .none) (fun _ => true) = true) ∧
    execAfter (.jne 2) { tState 0 [] x0 .none with fl := .less } (fun _ => true) = true ∧
    (hostLoad imageP1 (State.resetWith .none)).toOption ≠ none := by
  refine ⟨by decide, by decide, ⟨by simp, by decide⟩, by decide, by decide⟩

theorem witness_ProgramCounterAfterStep :
    (tState 0 [] x0 .equal).running = true ∧
    execAfter (.jeq 7) (tState 0 [] x0 .equal) (fun t => decide (t.running = true)) = true ∧
    execAfter (.jeq 8) (tState 0 [] x0 .equal) (fun t => decide (t.running = false)) = true := by decide

theorem witness_OutOfRangePayloads :
    let s := tState 253 [0x82, 8, 1] x0 .none
    s.pc ≤ 256 ∧ s.running = true ∧ s.fault = none ∧ faults s (.addressOutOfRange 8) = true := by decide

theorem witness_WellFormedInstructionsTakeNoIndexFault :
    let s := tState 0 [] #v[0, 0, 0, 0, 0, 0, 0, 0] .none
    (Instr.push 7).wellFormed = true ∧ s.fault = none ∧
    execAfter (.push 7) s (fun t => decide (t.fault = some (.addressOutOfRange (-1)))) = true := by decide

theorem witness_LoadWritesImageOrRefusesIt :
    (State.resetWith .none).mem.wf ∧ (List.replicate 256 (1 : Byte)).length ≤ 256 ∧
    256 < (List.replicate 257 (1 : Byte)).length := by
  exact ⟨Memory.wf_reset _, (List.length_replicate ..).le, by rw [List.length_replicate]; decide⟩

theorem witness_HostRunIsSequenceOfSteps :
    after (tState 0 [0x01] x0 .none) (fun _ => true) = true ∧
    (match Host.Core.run core 1 (tState 0 [0x01] x0 .none) with | .next _ => true | _ => false) = true ∧
    ((tState 0 [] x0 .none).halt.running = false ∧ (tState 0 [] x0 .none).halt.fault = none) ∧
    (((tState 0 [] x0 .none).enterFault .divisionByZero).running = false ∧
      ((tState 0 [] x0 .none).enterFault .divisionByZero).fault = some .divisionByZero) := by decide

theorem witness_FaultIsStickyUntilReset :
    after (tState 0 [0x00] x0 .none) (fun t => decide (t.fault ≠ none)) = true ∧
    (match Host.Core.run core 1 (tState 0 [] x0 .none).halt with | .next _ => true | _ => false) = true ∧
    (hostLoad imageP1 (State.resetWith .none)).toOption ≠ none := by decide

theorem witness_TraceShowsSlotAndRegisters :
    (tState 253 [] x0 .none).pc ≤ 253 ∧ (tState 254 [] x0 .none).pc = 254 ∧ (tState 255 [] x0 .none).pc = 255 ∧
    256 ≤ (tState 256 [] x0 .none).pc := by decide

end Sys2Proof.Tests
end

section
/-! What a completed instruction and a step leave of the state before them, and the invariant they keep (R22, R26,
R38). -/

namespace Sys2Proof.Machine

/-! ### The decoder (R74, R75) -/

@[simp] theorem mnemonic_build (m : Mnemonic) (a b : Byte) : (m.build a b).mnemonic = m := by cases m <;> rfl

/-- A decoded slot begins with the opcode of the instruction's row. -/
theorem opcode_of_decodeSlot {opc : OpcodeMap} {slot : Slot} {i : Instr} (h : decodeSlot opc slot = .ok i) :
    opc i.mnemonic = slot.ir := by
  simp only [decodeSlot] at h
  split at h
  · rename_i m hm
    cases h
    rw [mnemonic_build]
    exact lookupOpcode_some hm
  · cases h

theorem cells_le_three (i : Instr) : i.cells ≤ 3 := by
  have row (m : Mnemonic) : m.cells ≤ 3 := by cases m <;> decide
  exact row i.mnemonic

/-! ### What a completed instruction leaves (R22, R28, R31, R32) -/

/-- A tag other than `cmp` gives a register result (R130). -/
theorem alu_result {op : AluTag} {va vb : Byte} {out : AluOutput} (hop : op ≠ .cmp) (h : alu op va vb = .ok out) :
    ∃ v, out = .result v := by
  cases op with
  | mul | add | sub => cases h; exact ⟨_, rfl⟩
  | div =>
    simp only [alu] at h
    split at h
    · cases h
    · cases h; exact ⟨_, rfl⟩
  | cmp => exact absurd rfl hop
  | unrecognized tag => cases h

/-- MUL, ADD, SUB and DIV write the register of the first operand and advance by three. -/
theorem aluEffect_register {op : AluTag} {a b : Byte} {s t : State} (hop : op ≠ .cmp) (h : AluEffect op a b s t) :
    ∃ (ha : a.toNat < 8) (v : Byte), t = (s.setReg ⟨a.toNat, ha⟩ v).setPc (s.pc + 3) := by
  obtain ⟨ha, _, out, hout, rfl⟩ := h
  obtain ⟨v, rfl⟩ := alu_result hop hout
  exact ⟨ha, v, rfl⟩

/-- A completed CMP writes the comparison of its two registers to the flags and advances by three (R170). -/
theorem aluEffect_cmp {a b : Byte} {s t : State} (h : AluEffect .cmp a b s t) :
    ∃ (ha : a.toNat < 8) (hb : b.toNat < 8),
      t = (s.setFlags (compareFlags (s.getReg ⟨a.toNat, ha⟩) (s.getReg ⟨b.toNat, hb⟩))).setPc (s.pc + 3) := by
  obtain ⟨ha, hb, _, hout, rfl⟩ := h
  cases hout
  exact ⟨ha, hb, rfl⟩

/-- A comparison sets one of the three flags (R27, R170). -/
theorem compareFlags_ne_none (va vb : Byte) : compareFlags va vb ≠ .none := by
  simp only [compareFlags]
  split
  · simp
  · split <;> simp

/-- How far the state after a completed instruction can be from the state before it. -/
structure EffectFrame (i : Instr) (s t : State) : Prop where
  reg : ∀ r : Fin 8, r.val ∉ registersWritten i → t.getReg r = s.getReg r
  mem : t.mem = s.mem ∨
    s.sp ≠ 0 ∧ (∃ a, i = .push a ∨ i = .call a) ∧ ∃ v, t.mem = s.mem.write (s.sp - 1).toNat v
  fl : t.fl = s.fl ∨
    ∃ a b, i = .cmp a b ∧ a.toNat < 8 ∧ b.toNat < 8 ∧ ∃ va vb, t.fl = compareFlags va vb
  out : t.out = s.out ∨ ∃ a, i = .prn a
  pc : t.pc ≤ 255 ∨ t.pc = s.pc ∨ t.pc = s.pc + i.cells

section
variable {i : Instr} {s : State}

theorem effectFrame_setPc {n : Nat} (hn : n ≤ 255 ∨ n = s.pc + i.cells) : EffectFrame i s (s.setPc n) :=
  ⟨fun _ _ => rfl, .inl rfl, .inl rfl, .inl rfl, hn.imp_right .inr⟩

theorem effectFrame_setReg {r : Fin 8} {v : Byte} {n : Nat} (hr : r.val ∈ registersWritten i)
    (hn : n ≤ 255 ∨ n = s.pc + i.cells) : EffectFrame i s ((s.setReg r v).setPc n) :=
  ⟨fun _ hq => s.getReg_setReg_other v fun heq => hq (heq ▸ hr), .inl rfl, .inl rfl, .inl rfl, hn.imp_right .inr⟩

theorem effectFrame_stackStore {a v : Byte} {n : Nat} (hi : i = .push a ∨ i = .call a) (hsp : s.sp ≠ 0)
    (hn : n ≤ 255 ∨ n = s.pc + i.cells) :
    EffectFrame i s ((s.pushed.setMem (s.mem.write (s.sp - 1).toNat v)).setPc n) where
  reg q hq := by
    have h7 : 7 ∈ registersWritten i := by rcases hi with rfl | rfl <;> simp [registersWritten]
    exact s.getReg_setReg_other _ fun heq => hq (heq ▸ h7)
  mem := .inr ⟨hsp, ⟨a, hi⟩, v, rfl⟩
  fl := .inl rfl
  out := .inl rfl
  pc := hn.imp_right .inr

end

theorem byte_le_255 (v : Byte) : v.toNat ≤ 255 := Nat.le_of_lt_succ v.isLt

theorem effectFrame_of_aluEffect {op : AluTag} {i : Instr} {a b : Byte} {s t : State} (hop : op ≠ .cmp)
    (hw : a.toNat ∈ registersWritten i) (hc : i.cells = 3) (h : AluEffect op a b s t) : EffectFrame i s t := by
  obtain ⟨_, _, rfl⟩ := aluEffect_register hop h
  exact effectFrame_setReg hw (.inr (by rw [hc]))

theorem effectFrame_of_jumpEffect {i : Instr} {a : Byte} {s t : State} (h : JumpEffect a s t) : EffectFrame i s t := by
  obtain ⟨_, rfl⟩ := h
  exact effectFrame_setPc (.inl (byte_le_255 _))

theorem effect_frame {i : Instr} {s t : State} (h : Effect i s t) : EffectFrame i s t := by
  cases i with
  | hlt => cases h; exact ⟨fun _ _ => rfl, .inl rfl, .inl rfl, .inl rfl, .inr (.inl rfl)⟩
  | ldi a imm => obtain ⟨_, rfl⟩ := h; exact effectFrame_setReg (by simp [registersWritten]) (.inr rfl)
  | prn a => obtain ⟨_, rfl⟩ := h; exact ⟨fun _ _ => rfl, .inl rfl, .inl rfl, .inr ⟨a, rfl⟩, .inr (.inr rfl)⟩
  | mul a b => exact effectFrame_of_aluEffect (by simp) (by simp [registersWritten]) rfl h
  | add a b => exact effectFrame_of_aluEffect (by simp) (by simp [registersWritten]) rfl h
  | sub a b => exact effectFrame_of_aluEffect (by simp) (by simp [registersWritten]) rfl h
  | div a b => exact effectFrame_of_aluEffect (by simp) (by simp [registersWritten]) rfl h
  | push a => obtain ⟨hsp, _, rfl⟩ := h; exact effectFrame_stackStore (.inl rfl) hsp (.inr rfl)
  | pop a =>
    obtain ⟨ha, _, rfl⟩ := h
    refine ⟨fun r hr => ?_, .inl rfl, .inl rfl, .inl rfl, .inr (.inr rfl)⟩
    simp only [registersWritten, List.mem_cons, List.not_mem_nil, or_false, not_or] at hr
    obtain ⟨hra, hr7⟩ := hr
    rw [State.setPc_getReg, State.getReg_setReg_other _ _ fun heq => hr7 (congrArg Fin.val heq),
      State.getReg_setReg_other _ _ fun heq => hra (congrArg Fin.val heq)]
  | call a => obtain ⟨hsp, _, rfl⟩ := h; exact effectFrame_stackStore (.inr rfl) hsp (.inl (byte_le_255 _))
  | ret => obtain ⟨_, rfl⟩ := h; exact effectFrame_setReg (by simp [registersWritten]) (.inl (byte_le_255 _))
  | cmp a b =>
    obtain ⟨ha, hb, rfl⟩ := aluEffect_cmp h
    exact ⟨fun _ _ => rfl, .inl rfl, .inr ⟨a, b, rfl, ha, hb, _, _, rfl⟩, .inl rfl, .inr (.inr rfl)⟩
  | jmp a => exact effectFrame_of_jumpEffect h
  | jeq a =>
    simp only [Effect] at h
    split at h
    · exact effectFrame_of_jumpEffect h
    · subst h; exact effectFrame_setPc (.inr rfl)
  | jne a =>
    simp only [Effect] at h
    split at h
    · subst h; exact effectFrame_setPc (.inr rfl)
    · exact effectFrame_of_jumpEffect h

/-! ### What an instruction leaves, completed or not -/

section
variable {i : Instr} {s t : State}

theorem exec_getReg_unwritten (h : exec i s = .next t) {r : Fin 8} (hr : r.val ∉ registersWritten i) :
    t.getReg r = s.getReg r := by
  rcases exec_cases h with ⟨k, _, rfl⟩ | he
  · rfl
  · exact (effect_frame he).reg r hr

theorem exec_read_unchanged (h : exec i s = .next t) (hi : ∀ a, i ≠ .push a ∧ i ≠ .call a) (addr : Nat) :
    t.mem.read addr = s.mem.read addr := by
  rcases exec_cases h with ⟨k, _, rfl⟩ | he
  · rfl
  · rcases (effect_frame he).mem with hm | ⟨_, ⟨a, ha⟩, _⟩
    · rw [hm]
    · exact absurd ha (not_or.2 (hi a))

/-- Only a CMP whose two indices are valid writes the flags (R28). -/
theorem exec_fl_unchanged (h : exec i s = .next t) (hi : ∀ a b, i = .cmp a b → 8 ≤ a.toNat ∨ 8 ≤ b.toNat) :
    t.fl = s.fl := by
  rcases exec_cases h with ⟨k, _, rfl⟩ | he
  · rfl
  · rcases (effect_frame he).fl with hfl | ⟨a, b, hcmp, ha, hb, _⟩
    · exact hfl
    · have := hi a b hcmp
      omega

theorem exec_out_unchanged (h : exec i s = .next t) (hi : ∀ a, i ≠ .prn a) : t.out = s.out := by
  rcases exec_cases h with ⟨k, _, rfl⟩ | he
  · rfl
  · exact (effect_frame he).out.resolve_right fun ⟨a, ha⟩ => hi a ha

/-- The status of the core changes only by HLT and by a fault (R29, R30). -/
theorem exec_status (h : exec i s = .next t) (hi : i ≠ .hlt) :
    (t.running = s.running ∧ t.fault = s.fault) ∨ ∃ k, t = s.enterFault k := by
  rcases exec_cases h with ⟨k, _, rfl⟩ | he
  · exact .inr ⟨k, rfl⟩
  · exact .inl ((effect_status he).resolve_left fun ⟨hh, _⟩ => hi hh)

theorem exec_hlt (h : exec .hlt s = .next t) : t = s.halt := ((settle_next ..).1 h).symm

end

/-! ### Steps and host operations -/

theorem leftByStep_of_instrFault {i : Instr} {k : Fault} (h : InstrFault i k) : k.leftByStep = true := by
  rcases h with rfl | rfl | rfl | ⟨c, _, h8, rfl⟩
  · rfl
  · rfl
  · rfl
  · have := c.isLt
    simp only [Fault.leftByStep, decide_eq_true_eq]
    omega

/-- The slot the next fetch reads, where it is complete (R101). -/
def State.nextSlot (s : State) : Slot := ⟨s.mem.read s.pc, s.mem.read (s.pc + 1), s.mem.read (s.pc + 2)⟩

/-- What a step can do: nothing in a stopped core; in a running one it takes a fault or completes the instruction of a
complete slot. -/
theorem step_cases {s t : State} (h : step s = .next t) :
    (s.running = false ∧ t = s) ∨
    (s.running = true ∧ ∃ k, (s.pc ≤ 256 → k.leftByStep = true) ∧ t = s.enterFault k) ∨
    (s.running = true ∧ s.pc ≤ 253 ∧ ∃ i, decodeSlot defaultOpc s.nextSlot = .ok i ∧ Effect i s t) := by
  rcases engineStep_cases h with hstop | ⟨hr, _, rfl⟩ | ⟨hr, hpc, _, rfl⟩ | ⟨hr, hpc, i, hd, hx⟩
  · exact .inl hstop
  · exact .inr (.inl ⟨hr, _, fun hle => by rw [if_pos hle]; rfl, rfl⟩)
  · exact .inr (.inl ⟨hr, .unknownOpcode _ _, fun _ => decide_eq_true hpc, rfl⟩)
  · rcases exec_cases hx with ⟨k, hk, rfl⟩ | he
    · exact .inr (.inl ⟨hr, k, fun _ => leftByStep_of_instrFault hk, rfl⟩)
    · exact .inr (.inr ⟨hr, hpc, i, hd, he⟩)

theorem step_of_stopped {s : State} (hr : s.running = false) : step s = .next s := by
  simp [step, engineStep, hr]

/-- A state that a step answers with itself is left by no number of steps. -/
theorem run_of_step_self {M : Host.Core} {s : M.State} (h : M.step s = .next s) (n : Nat) : M.run n s = .next s := by
  induction n with
  | zero => rfl
  | succ n ih => rw [Host.Core.run, h]; exact ih

theorem run_of_stopped {s : State} (hr : s.running = false) (n : Nat) : Host.Core.run core n s = .next s :=
  run_of_step_self (M := core) (step_of_stopped hr) n

/-- What `load` does when it does not refuse the image (R232). -/
theorem hostLoad_ok {image : List Byte} {s t : State} (h : hostLoad image s = .ok t) :
    image.length ≤ 256 ∧ t = s.setMem (loadCells s.mem 0 image) := by
  simp only [hostLoad, Config.memSize] at h
  split at h
  · cases h
  · cases h
    exact ⟨by omega, rfl⟩

/-- A step that leaves a running core running completed an instruction of a complete slot. -/
theorem step_completes {s t : State} (hs : s.running = true) (h : step s = .next t) (ht : t.running = true) :
    s.pc ≤ 253 ∧ ∃ i, decodeSlot defaultOpc s.nextSlot = .ok i ∧ Effect i s t := by
  rcases step_cases h with ⟨hr, _⟩ | ⟨_, k, _, rfl⟩ | ⟨_, hdone⟩
  · simp [hs] at hr
  · cases ht
  · exact hdone

/-- `FL`, once set, stays set: a CMP sets another flag, nothing clears it (R27, R38(d)). -/
theorem step_fl_ne_none {s t : State} (h : step s = .next t) (hs : s.fl ≠ .none) : t.fl ≠ .none := by
  rcases step_cases h with ⟨_, rfl⟩ | ⟨_, k, _, rfl⟩ | ⟨_, _, i, _, he⟩
  · exact hs
  · exact hs
  · rcases (effect_frame he).fl with hfl | ⟨_, _, _, _, _, va, vb, hfl⟩
    · rwa [hfl]
    · rw [hfl]; exact compareFlags_ne_none va vb

/-- A step keeps `pc`, loads it from a cell or a register, or advances it by the length of the instruction (R26). -/
theorem step_pc {s t : State} (h : step s = .next t) :
    t.pc = s.pc ∨ t.pc ≤ 255 ∨
      s.pc ≤ 253 ∧ ∃ i, decodeSlot defaultOpc s.nextSlot = .ok i ∧ t.pc = s.pc + i.cells := by
  rcases step_cases h with ⟨_, rfl⟩ | ⟨_, k, _, rfl⟩ | ⟨_, hpc, i, hd, he⟩
  · exact .inl rfl
  · exact .inl rfl
  · rcases (effect_frame he).pc with hbyte | hkeep | hadv
    · exact .inr (.inl hbyte)
    · exact .inl hkeep
    · exact .inr (.inr ⟨hpc, i, hd, hadv⟩)

theorem step_pc_le {s t : State} (hpc : s.pc ≤ 256) (h : step s = .next t) : t.pc ≤ 256 := by
  rcases step_pc h with hkeep | hbyte | ⟨_, i, _, hadv⟩
  · omega
  · omega
  · have := cells_le_three i
    omega

/-! ### The invariant (R38) -/

theorem inv_resetWith (fl : Flags) : (State.resetWith fl).Inv :=
  ⟨Memory.wf_reset fl, Nat.zero_le _, by simp [State.resetWith], by simp [State.resetWith]⟩

theorem inv_enterFault {s : State} {k : Fault} (hs : s.Inv) (hk : k.leftByStep = true) : (s.enterFault k).Inv := by
  obtain ⟨hmem, hpc, -, -⟩ := hs
  exact ⟨hmem, hpc, fun _ => rfl, by simpa using hk⟩

theorem inv_load {image : List Byte} {s t : State} (hs : s.Inv) (h : hostLoad image s = .ok t) : t.Inv := by
  obtain ⟨hmem, hpc, hstop, hleft⟩ := hs
  obtain ⟨hlen, rfl⟩ := hostLoad_ok h
  exact ⟨Memory.wf_loadCells hmem (by omega), hpc, hstop, hleft⟩

theorem effect_mem_wf {i : Instr} {s t : State} (hs : s.mem.wf) (h : Effect i s t) : t.mem.wf := by
  rcases (effect_frame h).mem with hm | ⟨_, _, v, hm⟩
  · rwa [hm]
  · rw [hm]; exact Memory.wf_write hs (BitVec.isLt _)

/-- Every step keeps the invariant. -/
theorem step_keeps_inv {s t : State} (hs : s.Inv) (h : step s = .next t) : t.Inv := by
  obtain ⟨hmem, hpc, hstop, hleft⟩ := id hs
  rcases step_cases h with ⟨_, rfl⟩ | ⟨_, k, hk, rfl⟩ | ⟨_, _, i, _, he⟩
  · exact hs
  · exact inv_enterFault hs (hk hpc)
  · rcases effect_status he with ⟨_, rfl⟩ | ⟨hrun, hfault⟩
    · exact ⟨hmem, hpc, fun _ => rfl, hleft⟩
    · exact ⟨effect_mem_wf hmem he, step_pc_le hpc h, by rwa [hrun, hfault], by rwa [hfault]⟩

theorem reachable_inv {s : State} (h : Reachable s) : s.Inv := by
  induction h with
  | reset fl => exact inv_resetWith fl
  | load image _ hl ih => exact inv_load ih hl
  | step _ hst ih => exact step_keeps_inv ih hst

end Sys2Proof.Machine
end

section
/-! Which fault an instruction takes, exactly; and that an instruction does not see a change of the state outside what
it reads, which passes through it where it does not write. -/

namespace Sys2Proof.Machine

/-! ### The fault an instruction takes -/

/-- The operand cell `c` is no register index (R72). -/
def BadIndex (c : Byte) (k : Fault) : Prop := 8 ≤ c.toNat ∧ k = .addressOutOfRange c.toNat

/-- The tests of an ALU instruction in their order: index `a`, index `b`, the ALU (R133 to R136, R170). -/
def AluRaises (op : AluTag) (a b : Byte) (s : State) (k : Fault) : Prop :=
  BadIndex a k ∨ (a.toNat < 8 ∧ BadIndex b k) ∨
    ∃ (ha : a.toNat < 8) (hb : b.toNat < 8), alu op (s.getReg ⟨a.toNat, ha⟩) (s.getReg ⟨b.toNat, hb⟩) = .error k

/-- The tests of PUSH and CALL in their order: the stack pointer, then the index (R208). -/
def StackStoreRaises (a : Byte) (s : State) (k : Fault) : Prop :=
  (s.sp = 0 ∧ k = .addressOutOfRange (-1)) ∨ (s.sp ≠ 0 ∧ BadIndex a k)

/-- What POP increments: SP, but for `POP R7` the loaded cell (R153(b)). -/
def State.popBase (s : State) (a : Byte) : Byte := if a = 7 then s.mem.read s.sp.toNat else s.sp

/-- The instruction, run in `s`, takes the fault `k`: the first failing test in the order of R208. -/
def Raises (i : Instr) (s : State) (k : Fault) : Prop :=
  match i with
  | .hlt => False
  | .ldi a _ => BadIndex a k
  | .prn a => BadIndex a k
  | .mul a b => AluRaises .mul a b s k
  | .add a b => AluRaises .add a b s k
  | .sub a b => AluRaises .sub a b s k
  | .div a b => AluRaises .div a b s k
  | .push a => StackStoreRaises a s k
  | .pop a => BadIndex a k ∨ (a.toNat < 8 ∧ s.popBase a = 255 ∧ k = .addressOutOfRange 256)
  | .call a => StackStoreRaises a s k
  | .ret => s.sp = 255 ∧ k = .addressOutOfRange 256
  | .cmp a b => AluRaises .cmp a b s k
  | .jmp a => BadIndex a k
  | .jeq a => s.fl = .equal ∧ BadIndex a k
  | .jne a => s.fl ≠ .equal ∧ BadIndex a k

theorem regIndex_badIndex {c : Byte} {k : Fault} (h : BadIndex c k) : regIndex c = .error k := by
  obtain ⟨h8, rfl⟩ := h
  exact regIndex_error h8

theorem settle_aluHandler_of_raises {op : AluTag} {a b : Byte} {s : State} {k : Fault} (h : AluRaises op a b s k) :
    settle s (aluHandler op a b s) = .next (s.enterFault k) := by
  rcases h with ⟨ha, rfl⟩ | ⟨ha, hb, rfl⟩ | ⟨ha, hb, hk⟩
  · rw [aluHandler_bad_a op b s ha]; rfl
  · rw [aluHandler_bad_b op s ha hb]; rfl
  · rw [aluHandler_error op s ha hb hk]; rfl

theorem settle_aluHandler_of_effect {op : AluTag} {a b : Byte} {s t : State} (h : AluEffect op a b s t) :
    settle s (aluHandler op a b s) = .next t := by
  obtain ⟨ha, hb, out, hout, rfl⟩ := h
  rw [aluHandler_ok op s ha hb hout, settle_next, conclude_ok, State.writeBack_pc]

theorem settle_jumpHandler_of_badIndex {a : Byte} {s : State} {k : Fault} (h : BadIndex a k) :
    settle s (jumpHandler a s) = .next (s.enterFault k) := by
  obtain ⟨h8, rfl⟩ := h
  rw [jumpHandler_error s h8]; rfl

theorem settle_jumpHandler_of_effect {a : Byte} {s t : State} (h : JumpEffect a s t) :
    settle s (jumpHandler a s) = .next t := by
  obtain ⟨ha, rfl⟩ := h
  rw [jumpHandler_ok s ha]; rfl

theorem spIndex_eq_iff {a : Byte} (ha : a.toNat < 8) : (⟨a.toNat, ha⟩ : Fin 8) = Config.spIndex ↔ a = 7 := by
  rw [Fin.ext_iff, ← BitVec.toNat_inj]; rfl

/-- The instruction takes the fault that `Raises` names (R12, R201). -/
theorem exec_of_raises {i : Instr} {s : State} {k : Fault} (h : Raises i s k) : exec i s = .next (s.enterFault k) := by
  cases i with
  | hlt => exact h.elim
  | ldi a imm => simp only [exec, execLdi, regIndex_badIndex h]; rfl
  | prn a => simp only [exec, execPrn, regIndex_badIndex h]; rfl
  | mul a b => exact settle_aluHandler_of_raises h
  | add a b => exact settle_aluHandler_of_raises h
  | sub a b => exact settle_aluHandler_of_raises h
  | div a b => exact settle_aluHandler_of_raises h
  | cmp a b => exact settle_aluHandler_of_raises h
  | push a =>
    rcases h with ⟨hsp, rfl⟩ | ⟨hsp, hbad⟩
    · simp only [exec, execPush, State.pushSlot_error hsp]; rfl
    · simp only [exec, execPush, State.pushSlot_ok hsp, regIndex_badIndex hbad]; rfl
  | call a =>
    rcases h with ⟨hsp, rfl⟩ | ⟨hsp, hbad⟩
    · simp only [exec, execCall, State.pushSlot_error hsp]; rfl
    · simp only [exec, execCall, State.pushSlot_ok hsp, regIndex_badIndex hbad]; rfl
  | pop a =>
    rcases h with hbad | ⟨ha, hbase, rfl⟩
    · simp only [exec, execPop, regIndex_badIndex hbad]; rfl
    · rw [State.popBase] at hbase
      simp only [exec, execPop, regIndex_ok ha, State.memRead_byte, bind, Except.bind, spIndex_eq_iff ha, hbase,
        adjustSp_underflow]
      rfl
  | ret =>
    obtain ⟨hsp, rfl⟩ := h
    simp only [exec, execRet, State.memRead_byte, bind, Except.bind, hsp, adjustSp_underflow]
    rfl
  | jmp a => exact settle_jumpHandler_of_badIndex h
  | jeq a =>
    obtain ⟨hfl, hbad⟩ := h
    simp only [exec, execJeq, flagsEqual_eq_true.2 hfl, branchHandler_taken]
    exact settle_jumpHandler_of_badIndex hbad
  | jne a =>
    obtain ⟨hfl, hbad⟩ := h
    simp only [exec, execJne, flagsEqual_eq_false.2 hfl, Bool.not_false, branchHandler_taken]
    exact settle_jumpHandler_of_badIndex hbad

/-- The converse of `exec_cases`: a state with the instruction's effect is what it leaves. -/
theorem exec_of_effect {i : Instr} {s t : State} (h : Effect i s t) : exec i s = .next t := by
  cases i with
  | hlt => cases h; rfl
  | ldi a imm => obtain ⟨ha, rfl⟩ := h; simp only [exec, execLdi, regIndex_ok ha]; rfl
  | prn a => obtain ⟨ha, rfl⟩ := h; simp only [exec, execPrn, regIndex_ok ha]; rfl
  | mul a b => exact settle_aluHandler_of_effect h
  | add a b => exact settle_aluHandler_of_effect h
  | sub a b => exact settle_aluHandler_of_effect h
  | div a b => exact settle_aluHandler_of_effect h
  | cmp a b => exact settle_aluHandler_of_effect h
  | push a =>
    obtain ⟨hsp, ha, rfl⟩ := h
    simp only [exec, execPush, State.pushSlot_ok hsp, regIndex_ok ha, State.memWrite_byte, bind, Except.bind]
    rfl
  | call a =>
    obtain ⟨hsp, ha, rfl⟩ := h
    simp only [exec, execCall, State.pushSlot_ok hsp, regIndex_ok ha, State.memWrite_byte, bind, Except.bind]
    rfl
  | pop a =>
    obtain ⟨ha, hbase, rfl⟩ := h
    simp only [exec, execPop, regIndex_ok ha, State.memRead_byte, bind, Except.bind, spIndex_eq_iff ha,
      adjustSp_succ hbase]
    rfl
  | ret =>
    obtain ⟨hsp, rfl⟩ := h
    simp only [exec, execRet, State.memRead_byte, bind, Except.bind, adjustSp_succ hsp]
    rfl
  | jmp a => exact settle_jumpHandler_of_effect h
  | jeq a =>
    simp only [Effect] at h
    split at h
    · rename_i hfl
      simp only [exec, execJeq, flagsEqual_eq_true.2 hfl, branchHandler_taken]
      exact settle_jumpHandler_of_effect h
    · rename_i hfl
      subst h
      simp only [exec, execJeq, flagsEqual_eq_false.2 hfl, branchHandler_not_taken]
      rfl
  | jne a =>
    simp only [Effect] at h
    split at h
    · rename_i hfl
      subst h
      simp only [exec, execJne, flagsEqual_eq_true.2 hfl, Bool.not_true, branchHandler_not_taken]
      rfl
    · rename_i hfl
      simp only [exec, execJne, flagsEqual_eq_false.2 hfl, Bool.not_false, branchHandler_taken]
      exact settle_jumpHandler_of_effect h

theorem badIndex_or_lt (c : Byte) : (∃ k, BadIndex c k) ∨ c.toNat < 8 := by
  rcases Nat.lt_or_ge c.toNat 8 with h | h
  · exact .inr h
  · exact .inl ⟨_, h, rfl⟩

theorem aluRaises_or_effect (op : AluTag) (a b : Byte) (s : State) :
    (∃ k, AluRaises op a b s k) ∨ ∃ t, AluEffect op a b s t := by
  rcases badIndex_or_lt a with ⟨k, hk⟩ | ha
  · exact .inl ⟨k, .inl hk⟩
  rcases badIndex_or_lt b with ⟨k, hk⟩ | hb
  · exact .inl ⟨k, .inr (.inl ⟨ha, hk⟩)⟩
  cases hx : alu op (s.getReg ⟨a.toNat, ha⟩) (s.getReg ⟨b.toNat, hb⟩) with
  | error k => exact .inl ⟨k, .inr (.inr ⟨ha, hb, hx⟩)⟩
  | ok out => exact .inr ⟨_, ha, hb, out, hx, rfl⟩

theorem badIndex_or_jumpEffect (a : Byte) (s : State) : (∃ k, BadIndex a k) ∨ ∃ t, JumpEffect a s t :=
  (badIndex_or_lt a).imp_right fun ha => ⟨_, ha, rfl⟩

theorem stackStoreRaises_or_lt (a : Byte) (s : State) :
    (∃ k, StackStoreRaises a s k) ∨ (s.sp ≠ 0 ∧ a.toNat < 8) := by
  by_cases hsp : s.sp = 0
  · exact .inl ⟨_, .inl ⟨hsp, rfl⟩⟩
  · rcases badIndex_or_lt a with ⟨k, hk⟩ | ha
    · exact .inl ⟨k, .inr ⟨hsp, hk⟩⟩
    · exact .inr ⟨hsp, ha⟩

/-- Every instruction in every state takes a fault or completes. -/
theorem raises_or_effect (i : Instr) (s : State) : (∃ k, Raises i s k) ∨ ∃ t, Effect i s t := by
  cases i with
  | hlt => exact .inr ⟨_, rfl⟩
  | ldi a imm => exact (badIndex_or_lt a).imp_right fun ha => ⟨_, ha, rfl⟩
  | prn a => exact (badIndex_or_lt a).imp_right fun ha => ⟨_, ha, rfl⟩
  | mul a b => exact aluRaises_or_effect .mul a b s
  | add a b => exact aluRaises_or_effect .add a b s
  | sub a b => exact aluRaises_or_effect .sub a b s
  | div a b => exact aluRaises_or_effect .div a b s
  | cmp a b => exact aluRaises_or_effect .cmp a b s
  | push a => exact (stackStoreRaises_or_lt a s).imp_right fun ⟨hsp, ha⟩ => ⟨_, hsp, ha, rfl⟩
  | call a => exact (stackStoreRaises_or_lt a s).imp_right fun ⟨hsp, ha⟩ => ⟨_, hsp, ha, rfl⟩
  | pop a =>
    rcases badIndex_or_lt a with ⟨k, hk⟩ | ha
    · exact .inl ⟨k, .inl hk⟩
    · by_cases hbase : s.popBase a = 255
      · exact .inl ⟨_, .inr ⟨ha, hbase, rfl⟩⟩
      · exact .inr ⟨_, ha, hbase, rfl⟩
  | ret =>
    by_cases hsp : s.sp = 255
    · exact .inl ⟨_, hsp, rfl⟩
    · exact .inr ⟨_, hsp, rfl⟩
  | jmp a => exact badIndex_or_jumpEffect a s
  | jeq a =>
    by_cases hfl : s.fl = .equal
    · simpa only [Raises, Effect, hfl, true_and, if_true] using badIndex_or_jumpEffect a s
    · exact .inr ⟨_, (if_neg hfl).mpr rfl⟩
  | jne a =>
    by_cases hfl : s.fl = .equal
    · exact .inr ⟨_, (if_pos hfl).mpr rfl⟩
    · simpa only [Raises, Effect, hfl, ne_eq, not_false_eq_true, true_and, if_false] using badIndex_or_jumpEffect a s

/-- `exec_cases` with the fault named: what an instruction leaves is the entry of the fault it takes in that state, or
its effect. -/
theorem exec_raises_or_effect {i : Instr} {s t : State} (h : exec i s = .next t) :
    (∃ k, Raises i s k ∧ t = s.enterFault k) ∨ Effect i s t := by
  rcases raises_or_effect i s with ⟨k, hk⟩ | ⟨u, hu⟩
  · refine .inl ⟨k, hk, ?_⟩
    cases h.symm.trans (exec_of_raises hk)
    rfl
  · cases h.symm.trans (exec_of_effect hu)
    exact .inr hu

/-! ### States that an instruction cannot tell apart -/

/-- The instruction reads the same in `s` as in `s'`: memory, `pc`, the registers of its reads column, and for JEQ and
JNE whether the flag is Equal (R22, R28). -/
structure ReadsAlike (i : Instr) (s s' : State) : Prop where
  mem : s'.mem = s.mem
  pc : s'.pc = s.pc
  reg : ∀ r : Fin 8, r.val ∈ registersRead i → s'.getReg r = s.getReg r
  fl : (∃ a, i = .jeq a ∨ i = .jne a) → (s'.fl = .equal ↔ s.fl = .equal)

/-- The change `g` of the state passes through the instruction's writes: before a write or after it, it is the same
change. -/
structure PassesThrough (i : Instr) (g : State → State) : Prop where
  setReg : ∀ (u : State) (r : Fin 8) (v : Byte), r.val ∈ registersWritten i → (g u).setReg r v = g (u.setReg r v)
  setFlags : (∃ a b, i = .cmp a b ∧ a.toNat < 8 ∧ b.toNat < 8) → ∀ (u : State) (f : Flags),
    (g u).setFlags f = g (u.setFlags f)
  setMem : ∀ (u : State) (m : Memory), (g u).setMem m = g (u.setMem m)
  setPc : ∀ (u : State) (n : Nat), (g u).setPc n = g (u.setPc n)
  emit : ∀ (u : State) (v : Byte), (g u).emit v = g (u.emit v)
  halt : ∀ u : State, (g u).halt = g u.halt
  enterFault : ∀ (u : State) (k : Fault), (g u).enterFault k = g (u.enterFault k)

section
variable {i : Instr} {s s' t : State}

theorem ReadsAlike.sp (h : ReadsAlike i s s') (hi : 7 ∈ registersRead i) : s'.sp = s.sp := h.reg 7 hi

theorem ReadsAlike.returnAddress (h : ReadsAlike i s s') : s'.returnAddress = s.returnAddress := by
  rw [State.returnAddress, h.pc, ← State.returnAddress]

theorem ReadsAlike.operands {a b : Byte} (h : ReadsAlike i s s') (hi : registersRead i = [a.toNat, b.toNat])
    (ha : a.toNat < 8) (hb : b.toNat < 8) :
    s'.getReg ⟨a.toNat, ha⟩ = s.getReg ⟨a.toNat, ha⟩ ∧ s'.getReg ⟨b.toNat, hb⟩ = s.getReg ⟨b.toNat, hb⟩ :=
  ⟨h.reg _ (by simp [hi]), h.reg _ (by simp [hi])⟩

theorem aluRaises_of_readsAlike {op : AluTag} {a b : Byte} {k : Fault} (h : ReadsAlike i s s')
    (hi : registersRead i = [a.toNat, b.toNat]) (hk : AluRaises op a b s k) : AluRaises op a b s' k := by
  rcases hk with hbad | hbad | ⟨ha, hb, hx⟩
  · exact .inl hbad
  · exact .inr (.inl hbad)
  · obtain ⟨hra, hrb⟩ := h.operands hi ha hb
    exact .inr (.inr ⟨ha, hb, by rw [hra, hrb]; exact hx⟩)

theorem stackStoreRaises_of_readsAlike {a : Byte} {k : Fault} (h : ReadsAlike i s s') (hi : 7 ∈ registersRead i)
    (hk : StackStoreRaises a s k) : StackStoreRaises a s' k := by
  rw [StackStoreRaises, h.sp hi]
  exact hk

theorem popBase_of_readsAlike (h : ReadsAlike i s s') (hi : 7 ∈ registersRead i) (a : Byte) :
    s'.popBase a = s.popBase a := by
  rw [State.popBase, State.popBase, h.sp hi, h.mem]

/-- An instruction takes the same fault in states it reads alike. -/
theorem raises_of_readsAlike {k : Fault} (h : ReadsAlike i s s') (hk : Raises i s k) : Raises i s' k := by
  cases i with
  | hlt | ldi | prn | jmp => exact hk
  | mul | add | sub | div | cmp => exact aluRaises_of_readsAlike h rfl hk
  | push | call => exact stackStoreRaises_of_readsAlike h (by simp [registersRead]) hk
  | pop a =>
    rw [Raises, popBase_of_readsAlike h (by simp [registersRead])]
    exact hk
  | ret =>
    rw [Raises, h.sp (by simp [registersRead])]
    exact hk
  | jeq a => rwa [Raises, h.fl ⟨a, .inl rfl⟩]
  | jne a => rwa [Raises, ne_eq, h.fl ⟨a, .inr rfl⟩]

variable {g : State → State}

@[simp] theorem State.writeBack_result (s : State) (r : Fin 8) (v : Byte) : s.writeBack r (.result v) = s.setReg r v :=
  rfl

@[simp] theorem State.writeBack_flags (s : State) (r : Fin 8) (f : Flags) : s.writeBack r (.flags f) = s.setFlags f :=
  rfl

theorem aluEffect_passesThrough {op : AluTag} {a b : Byte} (hop : op ≠ .cmp) (hg : PassesThrough i g)
    (h : ReadsAlike i s (g s)) (hi : registersRead i = [a.toNat, b.toNat]) (hw : a.toNat ∈ registersWritten i)
    (he : AluEffect op a b s t) : AluEffect op a b (g s) (g t) := by
  obtain ⟨ha, hb, out, hout, rfl⟩ := he
  obtain ⟨v, rfl⟩ := alu_result hop hout
  obtain ⟨hra, hrb⟩ := h.operands hi ha hb
  refine ⟨ha, hb, .result v, by rw [hra, hrb]; exact hout, ?_⟩
  rw [State.writeBack_result, State.writeBack_result, hg.setReg _ _ _ hw, hg.setPc, h.pc]

theorem cmp_passesThrough {a b : Byte} (hg : PassesThrough (.cmp a b) g) (h : ReadsAlike (.cmp a b) s (g s))
    (he : AluEffect .cmp a b s t) : AluEffect .cmp a b (g s) (g t) := by
  obtain ⟨ha, hb, out, hout, rfl⟩ := he
  cases hout
  obtain ⟨hra, hrb⟩ := h.operands rfl ha hb
  refine ⟨ha, hb, _, by rw [hra, hrb]; rfl, ?_⟩
  rw [State.writeBack_flags, State.writeBack_flags, hg.setFlags ⟨a, b, rfl, ha, hb⟩, hg.setPc, h.pc]

theorem jumpEffect_passesThrough {a : Byte} (hg : PassesThrough i g) (h : ReadsAlike i s (g s))
    (hi : a.toNat ∈ registersRead i) (he : JumpEffect a s t) : JumpEffect a (g s) (g t) := by
  obtain ⟨ha, rfl⟩ := he
  exact ⟨ha, by rw [h.reg _ hi, hg.setPc]⟩

/-- The state in which PUSH and CALL store passes the change on, and their operand reads alike in it. -/
theorem pushed_passesThrough (hg : PassesThrough i g) (h : ReadsAlike i s (g s)) (hr : 7 ∈ registersRead i)
    (hw : 7 ∈ registersWritten i) :
    (g s).pushed = g s.pushed ∧
      ∀ r : Fin 8, r.val ∈ registersRead i → (g s).pushed.getReg r = s.pushed.getReg r := by
  refine ⟨by rw [State.pushed, h.sp hr, hg.setReg _ _ _ hw]; rfl, fun r hrr => ?_⟩
  simp only [State.pushed, State.getReg_setReg, h.sp hr, h.reg r hrr]

/-- A completed instruction passes on a change that it neither reads nor writes. -/
theorem effect_passesThrough (hg : PassesThrough i g) (h : ReadsAlike i s (g s)) (he : Effect i s t) :
    Effect i (g s) (g t) := by
  cases i with
  | hlt => cases he; exact (hg.halt s).symm
  | ldi a imm =>
    obtain ⟨ha, rfl⟩ := he
    exact ⟨ha, by rw [hg.setReg _ _ _ (by simp [registersWritten]), hg.setPc, h.pc]⟩
  | prn a =>
    obtain ⟨ha, rfl⟩ := he
    exact ⟨ha, by rw [h.reg _ (by simp [registersRead]), hg.emit, hg.setPc, h.pc]⟩
  | mul a b => exact aluEffect_passesThrough (by simp) hg h rfl (by simp [registersWritten]) he
  | add a b => exact aluEffect_passesThrough (by simp) hg h rfl (by simp [registersWritten]) he
  | sub a b => exact aluEffect_passesThrough (by simp) hg h rfl (by simp [registersWritten]) he
  | div a b => exact aluEffect_passesThrough (by simp) hg h rfl (by simp [registersWritten]) he
  | cmp a b => exact cmp_passesThrough hg h he
  | push a =>
    obtain ⟨hsp, ha, rfl⟩ := he
    have hsp' := h.sp (by simp [registersRead])
    obtain ⟨hpushed, hreg⟩ := pushed_passesThrough hg h (by simp [registersRead]) (by simp [registersWritten])
    refine ⟨by rwa [hsp'], ha, ?_⟩
    rw [hreg _ (by simp [registersRead]), hpushed, hsp', h.mem, h.pc, hg.setMem, hg.setPc]
  | call a =>
    obtain ⟨hsp, ha, rfl⟩ := he
    have hsp' := h.sp (by simp [registersRead])
    obtain ⟨hpushed, hreg⟩ := pushed_passesThrough hg h (by simp [registersRead]) (by simp [registersWritten])
    refine ⟨by rwa [hsp'], ha, ?_⟩
    rw [hreg _ (by simp [registersRead]), hpushed, hsp', h.mem, h.returnAddress, hg.setMem, hg.setPc]
  | pop a =>
    obtain ⟨ha, hbase, rfl⟩ := he
    have hsp' := h.sp (by simp [registersRead])
    refine ⟨ha, by rwa [hsp', h.mem], ?_⟩
    rw [hsp', h.mem, h.pc, hg.setReg _ _ _ (by simp [registersWritten]),
      hg.setReg _ _ _ (by simp [registersWritten]), hg.setPc]
  | ret =>
    obtain ⟨hsp, rfl⟩ := he
    have hsp' := h.sp (by simp [registersRead])
    refine ⟨by rwa [hsp'], ?_⟩
    rw [hsp', h.mem, hg.setReg _ _ _ (by simp [registersWritten]), hg.setPc]
  | jmp a => exact jumpEffect_passesThrough hg h (by simp [registersRead]) he
  | jeq a =>
    simp only [Effect, h.fl ⟨a, .inl rfl⟩] at he ⊢
    split at he
    · rw [if_pos ‹_›]; exact jumpEffect_passesThrough hg h (by simp [registersRead]) he
    · rw [if_neg ‹_›]; subst he; rw [h.pc, hg.setPc]
  | jne a =>
    simp only [Effect, h.fl ⟨a, .inr rfl⟩] at he ⊢
    split at he
    · rw [if_pos ‹_›]; subst he; rw [h.pc, hg.setPc]
    · rw [if_neg ‹_›]; exact jumpEffect_passesThrough hg h (by simp [registersRead]) he

/-- Noninterference: a change of the state that the instruction neither reads nor writes is passed on, whether it
completes or takes a fault. -/
theorem exec_passesThrough (hg : PassesThrough i g) (h : ReadsAlike i s (g s)) (hx : exec i s = .next t) :
    exec i (g s) = .next (g t) := by
  rcases exec_raises_or_effect hx with ⟨k, hk, rfl⟩ | he
  · rw [exec_of_raises (raises_of_readsAlike h hk), hg.enterFault]
  · exact exec_of_effect (effect_passesThrough hg h he)

end

/-! ### The three changes: a register, the flags, the output before -/

theorem State.setReg_comm (s : State) {r q : Fin 8} (v w : Byte) (h : r ≠ q) :
    (s.setReg r v).setReg q w = (s.setReg q w).setReg r v := by
  simp only [State.setReg, Vector.set_comm v w (fun heq => h (Fin.ext heq))]

@[simp] theorem State.setReg_setReg_same (s : State) (r : Fin 8) (v w : Byte) :
    (s.setReg r v).setReg r w = s.setReg r w := by
  simp [State.setReg]

theorem readsAlike_setReg {i : Instr} {r : Fin 8} (hr : r.val ∉ registersRead i) (s : State) (v : Byte) :
    ReadsAlike i s (s.setReg r v) :=
  ⟨rfl, rfl, fun _ hq => s.getReg_setReg_other v fun heq => hr (heq ▸ hq), fun _ => .rfl⟩

theorem passesThrough_setReg {i : Instr} {r : Fin 8} (hr : r.val ∉ registersWritten i) (v : Byte) :
    PassesThrough i (·.setReg r v) where
  setReg u _ w hq := u.setReg_comm v w fun heq => hr (heq ▸ hq)
  setFlags _ _ _ := rfl
  setMem _ _ := rfl
  setPc _ _ := rfl
  emit _ _ := rfl
  halt _ := rfl
  enterFault _ _ := rfl

theorem readsAlike_setFlags {i : Instr} {s : State} {f : Flags}
    (hf : (∀ a, i ≠ .jeq a ∧ i ≠ .jne a) ∨ (s.fl = .equal ↔ f = .equal)) : ReadsAlike i s (s.setFlags f) :=
  ⟨rfl, rfl, fun _ _ => rfl, fun ⟨a, ha⟩ => (hf.resolve_left fun hi => not_or.2 (hi a) ha).symm⟩

theorem passesThrough_setFlags {i : Instr} (hi : ∀ a b, i = .cmp a b → 8 ≤ a.toNat ∨ 8 ≤ b.toNat) (f : Flags) :
    PassesThrough i (·.setFlags f) where
  setReg _ _ _ _ := rfl
  setFlags := fun ⟨a, b, hab, ha, hb⟩ => by have := hi a b hab; omega
  setMem _ _ := rfl
  setPc _ _ := rfl
  emit _ _ := rfl
  halt _ := rfl
  enterFault _ _ := rfl

/-- The state with `p` emitted before everything in its output. -/
def State.emittedBefore (s : State) (p : List Byte) : State := { s with out := p ++ s.out }

theorem readsAlike_emittedBefore (i : Instr) (s : State) (p : List Byte) : ReadsAlike i s (s.emittedBefore p) :=
  ⟨rfl, rfl, fun _ _ => rfl, fun _ => .rfl⟩

theorem passesThrough_emittedBefore (i : Instr) (p : List Byte) : PassesThrough i (·.emittedBefore p) where
  setReg _ _ _ _ := rfl
  setFlags _ _ _ := rfl
  setMem _ _ := rfl
  setPc _ _ := rfl
  emit u v := by simp only [State.emit, State.emittedBefore, List.append_assoc]
  halt _ := rfl
  enterFault _ _ := rfl

/-! ### Writes that hide the change -/

/-- A register that is written and not read (LDI, POP of another register than 7) is overwritten whatever it held. -/
theorem effect_of_overwritten_register {i : Instr} {s t : State} {r : Fin 8} (hw : r.val ∈ registersWritten i)
    (hr : r.val ∉ registersRead i) (v : Byte) (he : Effect i s t) : Effect i (s.setReg r v) t := by
  cases i with
  | hlt | prn | cmp | jmp | jeq | jne => simp [registersWritten] at hw
  | mul | add | sub | div | push | call | ret =>
    simp only [registersWritten, registersRead, List.mem_cons, List.not_mem_nil, or_false] at hw hr
    omega
  | ldi a imm =>
    obtain ⟨ha, rfl⟩ := he
    obtain rfl : r = ⟨a.toNat, ha⟩ := Fin.ext (by simpa [registersWritten] using hw)
    exact ⟨ha, by simp⟩
  | pop a =>
    obtain ⟨ha, hbase, rfl⟩ := he
    have hsp : (s.setReg r v).sp = s.sp := (readsAlike_setReg hr s v).sp (by simp [registersRead])
    simp only [registersWritten, registersRead, List.mem_cons, List.not_mem_nil, or_false] at hw hr
    obtain rfl : r = ⟨a.toNat, ha⟩ := Fin.ext (hw.resolve_right hr)
    refine ⟨ha, by rwa [hsp], ?_⟩
    rw [hsp, State.setReg_setReg_same]
    rfl

/-- A completed CMP overwrites the flags whatever they were. -/
theorem cmp_effect_setFlags {a b : Byte} {s t : State} (f : Flags) (he : Effect (.cmp a b) s t) :
    Effect (.cmp a b) (s.setFlags f) t := by
  obtain ⟨ha, hb, _, hout, rfl⟩ := he
  cases hout
  exact ⟨ha, hb, _, rfl, rfl⟩

/-- CMP with valid indices completes. -/
theorem cmp_effect_of_exec {a b : Byte} {s t : State} (ha : a.toNat < 8) (hb : b.toNat < 8)
    (h : exec (.cmp a b) s = .next t) : Effect (.cmp a b) s t := by
  rcases exec_raises_or_effect h with ⟨k, ⟨hbad, _⟩ | ⟨_, hbad, _⟩ | ⟨_, _, hx⟩, _⟩ | he
  · omega
  · omega
  · cases hx
  · exact he

theorem exec_prn {a : Byte} (ha : a.toNat < 8) (s : State) :
    exec (.prn a) s = .next ((s.emit (s.getReg ⟨a.toNat, ha⟩)).setPc (s.pc + 2)) :=
  exec_of_effect ⟨ha, rfl⟩

end Sys2Proof.Machine
end

section
/-! The statements about the state, its invariant and what instructions read and leave. -/

namespace Sys2Proof.Machine

/-- Settles O14, by the cases of a step. -/
theorem stepKeepsInvariant : Obligations.StepKeepsInvariant := fun _ _ hs h => step_keeps_inv hs h

/-- Settles O15: the invariant by induction over the reachable states, the other parts from what a completed step is. -/
theorem reachableStatesMeetInvariants : Obligations.ReachableStatesMeetInvariants := by
  intro s hs
  have hinv : s.Inv := reachable_inv hs
  obtain ⟨-, hpc, hstop, -⟩ := id hinv
  refine ⟨hinv, ⟨fun _ => byte_le_255 _, fun _ => byte_le_255 _⟩,
    ⟨⟨_, s.memRead_byte s.sp⟩, fun n v _ => ⟨_, s.memWrite_byte n v⟩⟩, ⟨hpc, ?_⟩, ?_, ?_, ?_, hstop, ?_⟩
  · exact fun t hr h ht => (step_completes hr h ht).1
  · intro a b t hr h ht hcmp
    obtain ⟨_, i, hd, he⟩ := step_completes hr h ht
    obtain rfl : i = .cmp a b := Except.ok.inj (hd.symm.trans hcmp)
    obtain ⟨_, _, rfl⟩ := aluEffect_cmp he
    exact compareFlags_ne_none _ _
  · exact fun t hfl h => step_fl_ne_none h hfl
  · intro image t hfl h
    obtain ⟨_, rfl⟩ := hostLoad_ok h
    exact hfl
  · intro t hr h ht _
    have := (step_completes hr h ht).1
    omega

/-- Settles O16: only a three-cell instruction at 253 advances `pc` to 256. -/
theorem programCounterRange : Obligations.ProgramCounterRange := by
  intro s t hr hpc h
  refine ⟨step_pc_le hpc h, fun ht => (step_completes hr h ht).1, fun h256 => ?_, fun ht256 hne => ?_⟩
  · rcases engineStep_cases h with ⟨hr', _⟩ | ⟨_, _, rfl⟩ | ⟨_, hle, _⟩ | ⟨_, hle, _⟩
    · simp [hr] at hr'
    · rw [if_pos hpc]
    · omega
    · omega
  · rcases step_pc h with hkeep | hbyte | ⟨hle, i, hd, hadv⟩
    · omega
    · omega
    · have hcells := cells_le_three i
      have h253 : s.pc = 253 := by omega
      exact ⟨h253, i, by simpa [State.nextSlot, h253] using hd, by omega⟩

/-- Settles O41: the writes column holds the destination alone, and none of the five stores, prints or compares. -/
theorem registerWritersFrame : Obligations.RegisterWritersFrame := by
  intro a b s t i hi h
  simp only [List.mem_cons, List.not_mem_nil, or_false] at hi
  have hw : registersWritten i = [a.toNat] := by rcases hi with rfl | rfl | rfl | rfl | rfl <;> rfl
  refine ⟨fun r hr => exec_getReg_unwritten h (by simpa [hw] using hr), exec_read_unchanged h ?_,
    exec_fl_unchanged h ?_, exec_out_unchanged h ?_, exec_status h ?_⟩
  all_goals rcases hi with rfl | rfl | rfl | rfl | rfl <;> simp

/-- Settles O42: the writes column is empty; only CMP may write the flags, only PRN the output. -/
theorem prnAndCmpFrame : Obligations.PrnAndCmpFrame := by
  intro a b s t i hi h
  simp only [List.mem_cons, List.not_mem_nil, or_false] at hi
  have hw : registersWritten i = [] := by rcases hi with rfl | rfl <;> rfl
  refine ⟨fun r => exec_getReg_unwritten h (by simp [hw]), exec_read_unchanged h ?_,
    fun hprn => exec_fl_unchanged h (by simp [hprn]), fun hcmp => exec_out_unchanged h (by simp [hcmp]),
    exec_status h ?_⟩
  all_goals rcases hi with rfl | rfl <;> simp

/-- Settles O43: the writes column is empty, and only HLT stops the core without a fault. -/
theorem haltAndJumpsFrame : Obligations.HaltAndJumpsFrame := by
  intro a s t i hi h
  simp only [List.mem_cons, List.not_mem_nil, or_false] at hi
  have hw : registersWritten i = [] := by rcases hi with rfl | rfl | rfl | rfl <;> rfl
  refine ⟨fun r => exec_getReg_unwritten h (by simp [hw]), exec_read_unchanged h ?_, exec_fl_unchanged h ?_,
    exec_out_unchanged h ?_, ?_⟩
  case refine_4 =>
    split
    next hhlt => subst hhlt; rw [exec_hlt h]; exact ⟨rfl, rfl⟩
    next hne => exact exec_status h hne
  all_goals rcases hi with rfl | rfl | rfl | rfl <;> simp

/-- Settles O46: the frame of the writes column, and noninterference of a register outside the reads column. -/
theorem registersAreAccessedByTheTable : Obligations.RegistersAreAccessedByTheTable := by
  intro i s t h r
  refine ⟨exec_getReg_unwritten h, fun hr v => ?_⟩
  have halike := readsAlike_setReg hr s v
  by_cases hw : r.val ∈ registersWritten i
  · rcases exec_raises_or_effect h with ⟨k, hk, rfl⟩ | he
    · exact .inl (exec_of_raises (raises_of_readsAlike halike hk))
    · exact .inr ⟨hw, exec_of_effect (effect_of_overwritten_register hw hr v he)⟩
  · exact .inl (exec_passesThrough (passesThrough_setReg hw v) halike h)

/-- Settles O47: noninterference of the flags, which a completed CMP overwrites. -/
theorem flagsAreReadOnlyByConditionalJumps : Obligations.FlagsAreReadOnlyByConditionalJumps := by
  intro i s t h f hf
  constructor
  · intro hcmp
    exact ⟨exec_fl_unchanged h hcmp, exec_passesThrough (passesThrough_setFlags hcmp f) (readsAlike_setFlags hf) h⟩
  · rintro a b rfl ha hb
    exact exec_of_effect (cmp_effect_setFlags f (cmp_effect_of_exec ha hb h))

/-- Settles O48: the list appended is what the instruction emits from an empty output, and any output before it is
passed on. -/
theorem outputIsAppendOnlyAndUnread : Obligations.OutputIsAppendOnlyAndUnread := by
  intro i s t h
  obtain ⟨u, hu⟩ := exec_answers_next i { s with out := [] }
  have hbefore (o : List Byte) : exec i { s with out := o } = .next (u.emittedBefore o) := by
    have := exec_passesThrough (passesThrough_emittedBefore i o) (readsAlike_emittedBefore i _ o) hu
    simpa only [State.emittedBefore, List.append_nil] using this
  obtain rfl : t = u.emittedBefore s.out := by
    cases h.symm.trans (hbefore s.out)
    rfl
  refine ⟨u.out, rfl, exec_out_unchanged hu, ?_, hbefore⟩
  rintro a ha rfl
  cases hu.symm.trans (exec_prn ha _)
  rfl

/-- Settles O49: a completed instruction writes no cell but the one a PUSH or CALL stores. -/
theorem onlyStackStoresChangeMemory : Obligations.OnlyStackStoresChangeMemory := by
  intro s t addr hwf hr h hne
  rcases step_cases h with ⟨_, rfl⟩ | ⟨_, k, _, rfl⟩ | ⟨_, _, i, hd, he⟩
  · exact absurd rfl hne
  · exact absurd rfl hne
  · rcases (effect_frame he).mem with hm | ⟨hsp, ⟨a, hi⟩, v, hm⟩
    · exact absurd (by rw [hm]) hne
    · have haddr : (s.sp - 1).toNat = addr := by
        by_contra hother
        exact hne (by rw [hm, Memory.read_write hwf, if_neg hother])
      rw [toNat_sub_one hsp] at haddr
      have hpos : s.sp.toNat ≠ 0 := fun h0 => hsp (BitVec.eq_of_toNat_eq h0)
      refine ⟨by omega, ?_⟩
      have hop := opcode_of_decodeSlot hd
      rcases hi with rfl | rfl
      · exact .inl hop.symm
      · exact .inr hop.symm

/-- Settles O51: a fault and HLT leave `pc` and stop the core; the others by what each completes. -/
theorem programCounterAfterStep : Obligations.ProgramCounterAfterStep := by
  intro i s t hr h
  rcases exec_cases h with ⟨k, _, rfl⟩ | he
  · exact ⟨fun _ => rfl, fun ht => by cases ht⟩
  rcases effect_status he with ⟨rfl, rfl⟩ | ⟨hrun, _⟩
  · exact ⟨fun _ => rfl, fun ht => by cases ht⟩
  refine ⟨fun ht => by simp [hrun, hr] at ht, fun _ => ?_⟩
  cases i with
  | hlt => subst he; simp [hr] at hrun
  | ldi | prn => obtain ⟨_, rfl⟩ := he; rfl
  | push | pop => obtain ⟨_, _, rfl⟩ := he; rfl
  | mul | add | sub | div | cmp => obtain ⟨_, _, _, _, rfl⟩ := he; rfl
  | call a => obtain ⟨_, ha, rfl⟩ := he; exact ⟨ha, rfl⟩
  | ret => obtain ⟨_, rfl⟩ := he; rfl
  | jmp a => obtain ⟨ha, rfl⟩ := he; exact ⟨ha, rfl⟩
  | jeq a =>
    simp only [Effect] at he
    split at he
    · rename_i hfl
      obtain ⟨ha, rfl⟩ := he
      exact ⟨fun _ => ⟨ha, rfl⟩, fun hne => absurd hfl hne⟩
    · rename_i hfl
      subst he
      exact ⟨fun heq => absurd heq hfl, fun _ => rfl⟩
  | jne a =>
    simp only [Effect] at he
    split at he
    · rename_i hfl
      subst he
      exact ⟨fun hne => absurd hfl hne, fun _ => rfl⟩
    · rename_i hfl
      obtain ⟨ha, rfl⟩ := he
      exact ⟨fun _ => ⟨ha, rfl⟩, fun heq => absurd heq hfl⟩

/-- Settles O56: of what a step can do, only the entry of a fault writes `FAULT`. -/
theorem faultIsStickyUntilReset : Obligations.FaultIsStickyUntilReset := by
  refine ⟨fun s t h hne => ?_, fun n s t hr h => ?_, fun image s t h => ?_, fun _ _ => rfl⟩
  · rcases step_cases h with ⟨_, rfl⟩ | ⟨hr, k, _, rfl⟩ | ⟨_, _, i, _, he⟩
    · exact absurd rfl hne
    · exact ⟨hr, rfl, k, rfl⟩
    · rcases effect_status he with ⟨_, rfl⟩ | ⟨_, hfault⟩
      · exact absurd rfl hne
      · exact absurd hfault hne
  · have hst : Host.Outcome.next s = .next t := (run_of_stopped hr n).symm.trans h
    cases hst
    rfl
  · obtain ⟨_, rfl⟩ := hostLoad_ok h
    rfl

/-- Settles O13: the first clause at every flag state gives the last. -/
theorem resetMeetsInvariant : Obligations.ResetMeetsInvariant := ⟨inv_resetWith, rfl, inv_resetWith _⟩

end Sys2Proof.Machine
end

section
/-! What a stack store leaves in memory, and the statements about the memory accesses of the stack instructions (R51,
R61). -/

namespace Sys2Proof.Machine

/-- A fetch that succeeds reads the three cells at `pc` (R101). -/
theorem eq_nextSlot_of_fetch {s : State} {slot : Slot} (h : s.fetch = .ok slot) : slot = s.nextSlot := by
  rcases Nat.lt_or_ge s.pc 254 with hpc | hpc
  · rw [s.fetch_ok (by omega)] at h
    exact (Except.ok.inj h).symm
  · rw [s.fetch_error hpc] at h
    cases h

/-- An instruction that leaves the core running completed: a fault stops it (R12). -/
theorem effect_of_running {i : Instr} {s t : State} (h : exec i s = .next t) (ht : t.running = true) :
    Effect i s t := by
  rcases exec_cases h with ⟨k, _, rfl⟩ | he
  · cases ht
  · exact he

/-- The slot of a completed stack store is the cell below SP (R150, R154). -/
theorem eq_of_pushSlot_ok {s : State} {n : Byte} (hsp : s.sp ≠ 0) (h : s.pushSlot = .ok n) : n = s.sp - 1 :=
  Except.ok.inj (h.symm.trans (State.pushSlot_ok hsp))

/-- A completed PUSH stores its register, read after the decrement, in its slot (R151, R153(a)). -/
theorem push_stores {a n : Byte} {s t : State} (hn : s.pushSlot = .ok n) (he : Effect (.push a) s t) :
    ∃ ha : a.toNat < 8, t.mem = s.mem.write n.toNat ((s.setReg Config.spIndex n).getReg ⟨a.toNat, ha⟩) := by
  obtain ⟨hsp, ha, rfl⟩ := he
  obtain rfl := eq_of_pushSlot_ok hsp hn
  exact ⟨ha, rfl⟩

/-- A completed CALL stores the return address in its slot (R160). -/
theorem call_stores {a n : Byte} {s t : State} (hn : s.pushSlot = .ok n) (he : Effect (.call a) s t) :
    t.mem = s.mem.write n.toNat s.returnAddress := by
  obtain ⟨hsp, _, rfl⟩ := he
  obtain rfl := eq_of_pushSlot_ok hsp hn
  rfl

/-- A cell that is not the slot of a stack store keeps its value through every instruction (R51). -/
theorem exec_read_of_ne_pushSlot {i : Instr} {s t : State} {addr : Nat} (hwf : s.mem.wf) (h : exec i s = .next t)
    (haddr : ∀ n, s.pushSlot = .ok n → addr ≠ n.toNat) : t.mem.read addr = s.mem.read addr := by
  rcases exec_cases h with ⟨k, _, rfl⟩ | he
  · rfl
  · rcases (effect_frame he).mem with hm | ⟨hsp, _, v, hm⟩
    · rw [hm]
    · rw [hm, Memory.read_write hwf, if_neg (haddr _ (State.pushSlot_ok hsp)).symm]

/-- Settles O35: the slot holds the stored value, and the next fetch reads the memory the store left. -/
theorem nextFetchSeesStackWrite : Obligations.NextFetchSeesStackWrite := by
  intro a s t slot n v hwf _ ht hn hstore hfetch
  have hmem : t.mem = s.mem.write n.toNat v := by
    rcases hstore with ⟨h, hv⟩ | ⟨h, _, hv⟩
    · obtain ⟨ha, hm⟩ := push_stores hn (effect_of_running h ht)
      rw [hm, hv ha]
    · have hret : s.returnAddress = v := by rw [State.returnAddress, ← hv, BitVec.ofNat_toNat, BitVec.setWidth_eq]
      rw [call_stores hn (effect_of_running h ht), hret]
  obtain rfl := eq_nextSlot_of_fetch hfetch
  have hcell {c : Nat} (hc : c = n.toNat) : t.mem.read c = v := by
    rw [hmem, Memory.read_write hwf, if_pos hc.symm]
  exact ⟨hcell, hcell, hcell⟩

/-- Settles O44: the writes column holds SP alone, and only the slot `pushSlot` answers is stored to. -/
theorem stackStoresFrame : Obligations.StackStoresFrame := by
  intro a s t hwf i hi h
  simp only [List.mem_cons, List.not_mem_nil, or_false] at hi
  have hw : registersWritten i = [7] := by rcases hi with rfl | rfl <;> rfl
  refine ⟨fun r hr => exec_getReg_unwritten h ?_, fun n hn addr hne => exec_read_of_ne_pushSlot hwf h ?_,
    fun k hk addr => exec_read_of_ne_pushSlot hwf h ?_, exec_fl_unchanged h ?_, exec_out_unchanged h ?_,
    exec_status h ?_⟩
  · simpa [hw, Fin.ext_iff] using hr
  · intro m hm
    cases hn.symm.trans hm
    exact hne
  · intro m hm
    cases hk.symm.trans hm
  all_goals rcases hi with rfl | rfl <;> simp

/-- Settles O45: the writes column holds SP and POP's destination, and neither stores, prints or compares. -/
theorem stackLoadsFrame : Obligations.StackLoadsFrame := by
  intro a s t i hi h
  simp only [List.mem_cons, List.not_mem_nil, or_false] at hi
  refine ⟨fun r h7 hdst => exec_getReg_unwritten h ?_, exec_read_unchanged h ?_, exec_fl_unchanged h ?_,
    exec_out_unchanged h ?_, exec_status h ?_⟩
  case refine_1 =>
    have hr7 : r.val ≠ 7 := fun heq => h7 (Fin.ext heq)
    rcases hi with rfl | rfl
    · simp [registersWritten, hr7, hdst rfl]
    · simp [registersWritten, hr7]
  all_goals rcases hi with rfl | rfl <;> simp

end Sys2Proof.Machine
end

section
/-! The decoder and the encoder against each other, the illegal opcodes, and the faults of well-formed instructions (R70 to
R79). -/

namespace Sys2Proof.Machine

open Sys2Proof.Laws

/-! ### An instruction from its row and its operand cells (R70, R77, R81) -/

theorem build_operands_append : ∀ i : Instr, BuildOfOperands.Statement i
  | .hlt => BuildOfOperands.hlt
  | .ldi a imm => BuildOfOperands.ldi a imm
  | .prn a => BuildOfOperands.prn a
  | .mul a b => BuildOfOperands.mul a b
  | .add a b => BuildOfOperands.add a b
  | .sub a b => BuildOfOperands.sub a b
  | .div a b => BuildOfOperands.div a b
  | .push a => BuildOfOperands.push a
  | .pop a => BuildOfOperands.pop a
  | .call a => BuildOfOperands.call a
  | .ret => BuildOfOperands.ret
  | .cmp a b => BuildOfOperands.cmp a b
  | .jmp a => BuildOfOperands.jmp a
  | .jeq a => BuildOfOperands.jeq a
  | .jne a => BuildOfOperands.jne a

theorem length_operands (i : Instr) : i.operands.length + 1 = i.cells := by cases i <;> rfl

theorem operands_build_prefix (m : Mnemonic) (a b : Byte) : (m.build a b).operands <+: [a, b] := by
  cases m <;> simp [Mnemonic.build, Instr.operands]

/-- A row builds an instruction from two cells exactly when it is the instruction's row and the cells begin with the
instruction's operands. -/
theorem build_eq_iff {m : Mnemonic} {a b : Byte} {i : Instr} :
    m.build a b = i ↔ i.mnemonic = m ∧ i.operands <+: [a, b] := by
  constructor
  · rintro rfl
    exact ⟨mnemonic_build m a b, operands_build_prefix m a b⟩
  · rintro ⟨rfl, rest, hcells⟩
    have hbuild := build_operands_append i rest
    rwa [hcells] at hbuild

/-! ### What the decoder answers (R75, R78, R102) -/

/-- With distinct opcode values the lookup finds a row exactly at its own value (R75). -/
theorem lookupOpcode_eq_some {opc : OpcodeMap} (hopc : ∀ m n, opc m = opc n → m = n) {ir : Byte} {m : Mnemonic} :
    lookupOpcode opc ir = some m ↔ opc m = ir :=
  ⟨lookupOpcode_some, by rintro rfl; exact lookupOpcode_opc hopc m⟩

/-- The decoder's success, for any Instruction Table: the lookup finds the instruction's row, and the slot's operand cells
begin with its operands. -/
theorem decodeSlot_eq_ok {opc : OpcodeMap} {slot : Slot} {i : Instr} :
    decodeSlot opc slot = .ok i ↔ lookupOpcode opc slot.ir = some i.mnemonic ∧ i.operands <+: [slot.a, slot.b] := by
  cases hm : lookupOpcode opc slot.ir with
  | none => simp [decodeSlot, hm]
  | some m =>
    simp only [decodeSlot, hm, Except.ok.injEq, Option.some.injEq, build_eq_iff]
    rw [eq_comm (a := m)]

/-- The decoder rejects a slot with its opcode cell exactly when the lookup finds nothing (R78). -/
theorem decodeSlot_eq_error {opc : OpcodeMap} {slot : Slot} :
    decodeSlot opc slot = .error (.unknownOpcode slot.ir) ↔ lookupOpcode opc slot.ir = none := by
  cases hm : lookupOpcode opc slot.ir <;> simp [decodeSlot, hm]

/-- A list long enough for the row of its first cell decodes to what the row builds (R81). -/
theorem decodeBytes_of_lookup {opc : OpcodeMap} {ir : Byte} {rest : List Byte} {m : Mnemonic}
    (hm : lookupOpcode opc ir = some m) (hlen : m.cells ≤ rest.length + 1) :
    decodeBytes opc (ir :: rest) = .ok (m.build (rest.getD 0 0) (rest.getD 1 0), rest.drop (m.cells - 1)) := by
  simp only [decodeBytes, hm, if_neg (Nat.not_lt.2 hlen)]

/-- The bytes with a row are the opcode values themselves, so distinct values leave 241 of the 256 bytes without one
(R78). -/
theorem count_illegal_opcodes {opc : OpcodeMap} (hopc : ∀ m n, opc m = opc n → m = n) :
    ((List.range 256).filter fun n => (lookupOpcode opc (BitVec.ofNat 8 n)).isNone).length = 241 := by
  have hlegal : ((List.range 256).filter fun n => (lookupOpcode opc (BitVec.ofNat 8 n)).isSome).Perm
      (Mnemonic.all.map fun m => (opc m).toNat) := by
    refine (List.perm_ext_iff_of_nodup (List.nodup_range.filter _) ?_).2 fun n => ?_
    · exact List.Nodup.map (fun m n h => hopc m n (BitVec.eq_of_toNat_eq h)) (by decide)
    · simp only [List.mem_filter, List.mem_range, Option.isSome_iff_exists, lookupOpcode_eq_some hopc, List.mem_map]
      constructor
      · rintro ⟨hn, m, hm⟩
        exact ⟨m, m.mem_all, by rw [hm, BitVec.toNat_ofNat, Nat.mod_eq_of_lt hn]⟩
      · rintro ⟨m, -, rfl⟩
        exact ⟨(opc m).isLt, m, by rw [BitVec.ofNat_toNat, BitVec.setWidth_eq]⟩
  have hsplit := List.length_eq_length_filter_add (l := List.range 256)
    fun n => (lookupOpcode opc (BitVec.ofNat 8 n)).isSome
  rw [hlegal.length_eq] at hsplit
  simp only [List.length_range, List.length_map, Option.not_isSome, show Mnemonic.all.length = 15 from rfl] at hsplit
  omega

/-- No completed instruction writes `FAULT` (R30). -/
theorem effect_fault {i : Instr} {s t : State} (h : Effect i s t) : t.fault = s.fault := by
  rcases effect_status h with ⟨_, rfl⟩ | ⟨_, hfault⟩
  · rfl
  · exact hfault

/-! ### The statements -/

/-- Settles O2: the lookup finds the instruction's row, whose length is that of the cells, and the row builds the
instruction back from its operands. -/
theorem decodeOfEncodeIsInstruction : Obligations.DecodeOfEncodeIsInstruction := by
  intro opc hopc i rest
  have hcells : i.mnemonic.cells = i.operands.length + 1 := (length_operands i).symm
  rw [encode, List.cons_append, decodeBytes_of_lookup (lookupOpcode_opc hopc i.mnemonic) (by simp [hcells]),
    build_operands_append i rest, hcells, Nat.add_sub_cancel, List.drop_left]

/-- Settles O3: the opcode cell is the row's value, and the operand cells begin with the operands. -/
theorem slotDecodesIffItBeginsWithEncoding : Obligations.SlotDecodesIffItBeginsWithEncoding := by
  intro opc hopc slot i
  rw [decodeSlot_eq_ok, lookupOpcode_eq_some hopc, encode, List.cons_prefix_cons]

/-- Settles O4: a slot is rejected exactly when the lookup finds nothing; the default values are distinct, so the count
holds for them. -/
theorem illegalOpcodesAreRejected : Obligations.IllegalOpcodesAreRejected :=
  ⟨fun _ _ => decodeSlot_eq_error.trans lookupOpcode_eq_none, count_illegal_opcodes defaultOpc_injective, by decide⟩

/-- Settles O5: an instruction of one cell has no operands, one of two cells has only the first cell of the two. -/
theorem unusedSlotCellsAreIgnored : Obligations.UnusedSlotCellsAreIgnored := by
  intro opc ir a b i h
  obtain ⟨hrow, hops⟩ := decodeSlot_eq_ok.1 h
  have hlen := length_operands i
  refine ⟨fun hone a' b' => decodeSlot_eq_ok.2 ⟨hrow, ?_⟩, fun htwo b' => decodeSlot_eq_ok.2 ⟨hrow, ?_⟩⟩
  · rw [List.eq_nil_of_length_eq_zero (by omega : i.operands.length = 0)]
    exact List.nil_prefix
  · have hfirst : i.operands <+: [a] :=
      List.prefix_of_prefix_length_le hops (List.prefix_append [a] [b]) (by rw [List.length_singleton]; omega)
    exact hfirst.trans (List.prefix_append [a] [b'])

/-- Settles O53: of the faults an instruction takes, the index fault needs an operand cell of 8 or more; a completed
instruction brings none. -/
theorem wellFormedInstructionsTakeNoIndexFault : Obligations.WellFormedInstructionsTakeNoIndexFault := by
  intro i s t n hwf hs h ht
  rcases exec_cases h with ⟨k, hk, rfl⟩ | he
  · obtain rfl : k = .addressOutOfRange n := Option.some.inj ht
    rcases hk with hk | hk | hk | ⟨c, hc, h8, -⟩
    · cases hk
    · exact .inl (Fault.addressOutOfRange.inj hk)
    · exact .inr (Fault.addressOutOfRange.inj hk)
    · have hc8 : c.toNat < 8 := of_decide_eq_true (List.all_eq_true.1 hwf c hc)
      omega
  · rw [effect_fault he, hs] at ht
    cases ht

/-- Settles O1: each word is a closed instance of the decoder. -/
theorem sampleWordsDecode : Obligations.SampleWordsDecode := by
  unfold Obligations.SampleWordsDecode
  decide

end Sys2Proof.Machine
end

section
/-! The equations of the engine's step, one per branch of the pass, and the statements about the cycle (R100 to R105). -/

namespace Sys2Proof.Machine

/-! ### The step, branch by branch (R100, R101, R203, R211) -/

section

variable {opc : OpcodeMap} {s : State}

theorem engineStep_of_stopped (hr : s.running = false) : engineStep opc s = .next s := by
  simp [engineStep, hr]

theorem engineStep_of_incomplete_slot (hr : s.running = true) (hpc : 254 ≤ s.pc) :
    engineStep opc s = .next (s.enterFault (.addressOutOfRange (if s.pc ≤ 256 then 256 else s.pc))) := by
  simp [engineStep, hr, s.fetch_error hpc]

theorem engineStep_of_unknownOpcode {c : Byte} (hr : s.running = true) (hpc : s.pc ≤ 253)
    (hd : decodeSlot opc s.nextSlot = .error (.unknownOpcode c)) :
    engineStep opc s = .next (s.enterFault (.unknownOpcode c s.pc)) := by
  rw [State.nextSlot] at hd
  simp [engineStep, hr, s.fetch_ok hpc, hd]

theorem engineStep_of_decoded {i : Instr} (hr : s.running = true) (hpc : s.pc ≤ 253)
    (hd : decodeSlot opc s.nextSlot = .ok i) : engineStep opc s = exec i s := by
  rw [State.nextSlot] at hd
  simp [engineStep, hr, s.fetch_ok hpc, hd]

/-- The pass answers a next state on every branch, the decoded instruction's included. -/
theorem engineStep_answers_next (opc : OpcodeMap) (s : State) : ∃ t, engineStep opc s = .next t := by
  cases hr : s.running with
  | false => exact ⟨_, engineStep_of_stopped hr⟩
  | true =>
    rcases Nat.lt_or_ge s.pc 254 with hlt | hge
    · have hpc : s.pc ≤ 253 := Nat.le_of_lt_succ hlt
      cases hd : decodeSlot opc s.nextSlot with
      | error e => exact ⟨_, engineStep_of_unknownOpcode hr hpc hd⟩
      | ok i => rw [engineStep_of_decoded hr hpc hd]; exact exec_answers_next i s
    · exact ⟨_, engineStep_of_incomplete_slot hr hge⟩

/-- In the three places past the last complete slot the fetch reports the address 256 (R101). -/
theorem State.fetch_error_256 (hpc : 254 ≤ s.pc) (hle : s.pc ≤ 256) : s.fetch = .error (.addressOutOfRange 256) := by
  rw [s.fetch_error hpc, if_pos hle]

theorem engineStep_fetch_error_256 (hr : s.running = true) (hpc : 254 ≤ s.pc) (hle : s.pc ≤ 256) :
    engineStep opc s = .next (s.enterFault (.addressOutOfRange 256)) := by
  rw [engineStep_of_incomplete_slot hr hpc, if_pos hle]

/-- A slot that begins with HLT's opcode is HLT, whatever its other cells hold (R74, R77). -/
theorem decodeSlot_hlt {slot : Slot} (h : slot.ir = defaultOpc .hlt) : decodeSlot defaultOpc slot = .ok .hlt :=
  decodeSlot_eq_ok.2 ⟨(lookupOpcode_eq_some defaultOpc_injective).2 h.symm, List.nil_prefix⟩

theorem exec_hlt_eq_halt (s : State) : exec .hlt s = .next s.halt := rfl

end

/-! ### The statements -/

/-- Settles O10: every branch of the pass answers a next state, and so does every instruction. -/
theorem everyStepAnswersNext : Obligations.EveryStepAnswersNext := ⟨engineStep_answers_next, exec_answers_next⟩

/-- Settles O6: the pass on a complete slot that decodes. -/
theorem stepRunsDecodedInstruction : Obligations.StepRunsDecodedInstruction :=
  fun _ _ hr hpc hd => engineStep_of_decoded hr hpc hd

/-- Settles O7: the slots that begin at 253 or below are complete, those at 254, 255 and 256 miss the cell 256. -/
theorem fetchReadsWholeSlotOrFaults : Obligations.FetchReadsWholeSlotOrFaults :=
  fun s => ⟨s.fetch_ok, fun hpc hle =>
    ⟨State.fetch_error_256 hpc hle, fun hr _ => engineStep_fetch_error_256 hr hpc hle⟩⟩

/-- Settles O17: HLT's one cell decodes in every complete slot, and the stopped core it leaves is the model's fixed point. -/
theorem hltStopsTheCore : Obligations.HltStopsTheCore := by
  refine ⟨rfl, exec_hlt_eq_halt, fun s hr hcell => ⟨fun hpc => ?_, fun hpc => ?_⟩, fun _ => step_of_stopped rfl⟩
  · exact (engineStep_of_decoded hr hpc (decodeSlot_hlt hcell)).trans (exec_hlt_eq_halt s)
  · exact engineStep_fetch_error_256 hr (by omega) (by omega)

end Sys2Proof.Machine
end

section
/-! The statements about LDI and PRN (R120, R121): the completed instruction, and the fault of an index of 8 or more. -/

namespace Sys2Proof.Machine

theorem exec_ldi {a : Byte} (imm : Byte) (ha : a.toNat < 8) (s : State) :
    exec (.ldi a imm) s = .next ((s.setReg ⟨a.toNat, ha⟩ imm).setPc (s.pc + 3)) :=
  exec_of_effect ⟨ha, rfl⟩

/-- Settles O18: a valid index gives LDI's effect, an invalid one is the only fault LDI raises. -/
theorem ldiLoadsImmediate : Obligations.LdiLoadsImmediate := by
  intro a imm s
  refine ⟨rfl, fun ha => ?completed, fun ha => ?badIndex⟩
  case completed => exact exec_ldi imm ha s
  case badIndex => exact exec_of_raises ⟨ha, rfl⟩

/-- Settles O19: a valid index gives PRN's effect, an invalid one is the only fault PRN raises. -/
theorem prnAppendsRegister : Obligations.PrnAppendsRegister := by
  intro a s
  refine ⟨rfl, fun ha => ?completed, fun ha => ?badIndex⟩
  case completed => exact exec_prn ha s
  case badIndex => exact exec_of_raises ⟨ha, rfl⟩

end Sys2Proof.Machine
end

section
/-! What the ALU computes for each tag, and the statements about MUL, ADD, SUB and DIV (R130 to R136, R205). -/

namespace Sys2Proof.Machine

/-! ### The ALU, tag by tag (R9, R130, R132) -/

/-- Narrowing takes the least non-negative residue, for a negative integer too (R9). -/
theorem toNat_narrow (n : Int) : ((narrow n).toNat : Int) = n % 256 := by
  rw [narrow, BitVec.toNat_ofInt]
  omega

theorem toNat_narrow_natCast (n : Nat) : (narrow n).toNat = n % 256 := by
  have h := toNat_narrow n
  omega

section
variable (va vb : Byte)

theorem alu_mul : ∃ v : Byte, v.toNat = (va.toNat * vb.toNat) % 256 ∧ alu .mul va vb = .ok (.result v) :=
  ⟨narrow ((va.toNat * vb.toNat : Nat) : Int), toNat_narrow_natCast _, by rw [alu, Int.natCast_mul]⟩

theorem alu_add : ∃ v : Byte, v.toNat = (va.toNat + vb.toNat) % 256 ∧ alu .add va vb = .ok (.result v) :=
  ⟨narrow ((va.toNat + vb.toNat : Nat) : Int), toNat_narrow_natCast _, by rw [alu, Int.natCast_add]⟩

theorem alu_sub :
    ∃ v : Byte, (v.toNat : Int) = ((va.toNat : Int) - vb.toNat) % 256 ∧ alu .sub va vb = .ok (.result v) :=
  ⟨narrow ((va.toNat : Int) - vb.toNat), toNat_narrow _, rfl⟩

theorem alu_cmp :
    alu .cmp va vb = .ok (.flags (if va = vb then .equal else if va.toNat < vb.toNat then .less else .greater)) := by
  simp only [alu, compareFlags, BitVec.toNat_inj]

end

/-- A quotient of two bytes is a byte, so narrowing leaves it as it is (R132(d)). -/
theorem alu_div (va : Byte) {vb : Byte} (h : vb ≠ 0) :
    ∃ v : Byte, v.toNat = va.toNat / vb.toNat ∧ alu .div va vb = .ok (.result v) := by
  have hdivisor : vb.toNat ≠ 0 := fun h0 => h (BitVec.eq_of_toNat_eq h0)
  have hquotient : va.toNat / vb.toNat < 256 := Nat.lt_of_le_of_lt (Nat.div_le_self _ _) va.isLt
  refine ⟨narrow ((va.toNat / vb.toNat : Nat) : Int), ?_, ?_⟩
  · rw [toNat_narrow_natCast, Nat.mod_eq_of_lt hquotient]
  · rw [alu, if_neg hdivisor, Int.natCast_div]

theorem alu_div_zero (va : Byte) : alu .div va 0 = .error .divisionByZero := rfl

/-! ### From the ALU to the instruction (R133 to R136, R208) -/

section
variable {op : AluTag} {a b : Byte} {s : State}

/-- A register result with the property `P` goes to the first operand's register, and nothing else but `pc` changes. -/
theorem settle_aluHandler_of_result {P : Byte → Prop} (ha : a.toNat < 8) (hb : b.toNat < 8)
    (h : ∃ v, P v ∧ alu op (s.getReg ⟨a.toNat, ha⟩) (s.getReg ⟨b.toNat, hb⟩) = .ok (.result v)) :
    ∃ v, P v ∧ settle s (aluHandler op a b s) = .next { s with x := s.x.set a.toNat v, pc := s.pc + 3 } := by
  obtain ⟨v, hv, hout⟩ := h
  exact ⟨v, hv, settle_aluHandler_of_effect ⟨ha, hb, .result v, hout, rfl⟩⟩

/-- The index faults of an ALU instruction, `a` before `b` (R208). -/
theorem settle_aluHandler_index_faults (op : AluTag) (a b : Byte) (s : State) :
    (8 ≤ a.toNat → settle s (aluHandler op a b s) = .next (s.enterFault (.addressOutOfRange a.toNat))) ∧
    (a.toNat < 8 → 8 ≤ b.toNat →
      settle s (aluHandler op a b s) = .next (s.enterFault (.addressOutOfRange b.toNat))) :=
  ⟨fun ha => settle_aluHandler_of_raises (.inl ⟨ha, rfl⟩),
    fun ha hb => settle_aluHandler_of_raises (.inr (.inl ⟨ha, hb, rfl⟩))⟩

theorem aluRaises_divisionByZero (ha : a.toNat < 8) (hb : b.toNat < 8) (h : s.getReg ⟨b.toNat, hb⟩ = 0) :
    AluRaises .div a b s .divisionByZero :=
  .inr (.inr ⟨ha, hb, by rw [h, alu_div_zero]⟩)

end

/-! ### The statements -/

/-- Settles O20: one equation of the ALU for each tag. -/
theorem aluComputesItsOperations : Obligations.AluComputesItsOperations :=
  fun va vb => ⟨alu_mul va vb, alu_add va vb, alu_sub va vb, fun h => h ▸ alu_div_zero va, alu_div va, alu_cmp va vb,
    fun _ => rfl⟩

/-- Settles O22: MUL is the ALU handler, and with valid indices it writes the ALU's product. -/
theorem mulWrapsProduct : Obligations.MulWrapsProduct :=
  fun a b s => ⟨rfl, fun ha hb => settle_aluHandler_of_result ha hb (alu_mul _ _),
    settle_aluHandler_index_faults .mul a b s⟩

/-- Settles O23: ADD is the ALU handler, and with valid indices it writes the ALU's sum. -/
theorem addWrapsSum : Obligations.AddWrapsSum :=
  fun a b s => ⟨rfl, fun ha hb => settle_aluHandler_of_result ha hb (alu_add _ _),
    settle_aluHandler_index_faults .add a b s⟩

/-- Settles O24: SUB is the ALU handler, and with valid indices it writes the ALU's wrapped difference. -/
theorem subWrapsDifference : Obligations.SubWrapsDifference :=
  fun a b s => ⟨rfl, fun ha hb => settle_aluHandler_of_result ha hb (alu_sub _ _),
    settle_aluHandler_index_faults .sub a b s⟩

/-- Settles O25: with valid indices the divisor decides between the ALU's quotient and its fault. -/
theorem divGivesQuotientOrFaults : Obligations.DivGivesQuotientOrFaults := by
  intro a b s
  refine ⟨rfl, fun ha hb => ⟨fun hdivisor => ?completed, fun hzero => ?zeroDivisor⟩,
    settle_aluHandler_index_faults .div a b s⟩
  case completed => exact settle_aluHandler_of_result ha hb (alu_div _ hdivisor)
  case zeroDivisor => exact exec_of_raises (aluRaises_divisionByZero ha hb hzero)

end Sys2Proof.Machine
end

section
/-! The stack-pointer range law, PUSH and POP as equations, register 7 as their operand, and the round trip of a value
through the stack (R150 to R154). -/

namespace Sys2Proof.Machine

/-! ### The stack pointer's range (R154) -/

theorem adjustSp_in_range {n : Int} (h0 : 0 ≤ n) (h255 : n ≤ 255) :
    ∃ v : Byte, (v.toNat : Int) = n ∧ adjustSp n = .ok v := by
  have hrange : ¬ (n < 0 ∨ (Config.memSize : Int) ≤ n) := by simp only [Config.memSize]; omega
  refine ⟨BitVec.ofInt 8 n, ?_, if_neg hrange⟩
  rw [BitVec.toNat_ofInt]
  omega

theorem adjustSp_out_of_range {n : Int} (h : n < 0 ∨ 255 < n) : adjustSp n = .error (.addressOutOfRange n) :=
  if_pos h

/-! ### PUSH and POP (R151 to R153) -/

section
variable {a : Byte} {s t : State}

theorem State.sp_pushed (s : State) : s.pushed.sp = s.sp - 1 := s.sp_setReg_spIndex _

/-- The operand register after the decrement: for register 7 it is the decremented SP (R153(a)). -/
theorem State.getReg_pushed (s : State) (ha : a.toNat < 8) :
    s.pushed.getReg ⟨a.toNat, ha⟩ = if a = 7 then s.sp - 1 else s.getReg ⟨a.toNat, ha⟩ := by
  simp only [State.pushed, State.getReg_setReg, eq_comm (a := Config.spIndex), spIndex_eq_iff ha]

theorem exec_push (hsp : s.sp ≠ 0) (ha : a.toNat < 8) :
    exec (.push a) s = .next ((s.pushed.setMem (s.mem.write (s.sp - 1).toNat
      (if a = 7 then s.sp - 1 else s.getReg ⟨a.toNat, ha⟩))).setPc (s.pc + 2)) :=
  exec_of_effect ⟨hsp, ha, by rw [s.getReg_pushed ha]⟩

theorem exec_pop (ha : a.toNat < 8) (hbase : s.popBase a ≠ 255) :
    exec (.pop a) s = .next
      (((s.setReg ⟨a.toNat, ha⟩ (s.mem.read s.sp.toNat)).setReg Config.spIndex (s.popBase a + 1)).setPc (s.pc + 2)) :=
  exec_of_effect ⟨ha, hbase, rfl⟩

theorem exec_pop_underflow (ha : a.toNat < 8) (hbase : s.popBase a = 255) :
    exec (.pop a) s = .next (s.enterFault (.addressOutOfRange 256)) :=
  exec_of_raises (.inr ⟨ha, hbase, rfl⟩)

theorem ne_seven_of_toNat_lt (ha : a.toNat < 7) : a ≠ 7 := by
  rintro rfl
  exact absurd ha (by decide)

theorem State.popBase_of_ne (s : State) (ha : a ≠ 7) : s.popBase a = s.sp := if_neg ha

theorem State.popBase_seven (s : State) : s.popBase 7 = s.mem.read s.sp.toNat := if_pos rfl

/-- A PUSH of another register than 7 that completes leaves SP below where it was and the register's value there. -/
theorem push_leaves (ha : a.toNat < 7) (hwf : s.mem.wf) (he : Effect (.push a) s t) :
    s.sp ≠ 0 ∧ t.sp = s.sp - 1 ∧ t.mem.read t.sp.toNat = s.getReg ⟨a.toNat, by omega⟩ := by
  obtain ⟨hsp, ha8, rfl⟩ := he
  have hvalue : s.pushed.getReg ⟨a.toNat, ha8⟩ = s.getReg ⟨a.toNat, ha8⟩ := by
    rw [s.getReg_pushed ha8, if_neg (ne_seven_of_toNat_lt ha)]
  refine ⟨hsp, s.sp_pushed, ?_⟩
  rw [State.setPc_sp, State.setMem_sp, State.sp_pushed, State.setPc_mem, State.setMem_mem, Memory.read_write hwf,
    if_pos rfl, hvalue]

end

/-! ### The statements -/

/-- Settles O26: -1 and 256 are the two adjustments that leave the range; SUB does not adjust SP but writes the narrowed
difference to a register. -/
theorem stackPointerRangeLaw : Obligations.StackPointerRangeLaw := by
  refine ⟨fun n => adjustSp_in_range, fun n => adjustSp_out_of_range, fun a s hsp => ⟨?push, ?call⟩, fun s hsp => ?ret,
    fun a s hsp ha => ?pop, fun b hb s hsp hone => ?sub⟩
  case push => exact exec_of_raises (.inl ⟨hsp, rfl⟩)
  case call => exact exec_of_raises (.inl ⟨hsp, rfl⟩)
  case ret => exact exec_of_raises ⟨hsp, rfl⟩
  case pop => exact exec_pop_underflow (by omega) ((s.popBase_of_ne (ne_seven_of_toNat_lt ha)).trans hsp)
  case sub =>
    have h7 : s.getReg ⟨(7 : Byte).toNat, by decide⟩ = 0 := hsp
    exact settle_aluHandler_of_effect ⟨by decide, hb, .result 255, by rw [h7, hone]; rfl, rfl⟩

/-- Settles O27: SP is tested before the index, and the slot `SP - 1` is a cell because SP is not 0. -/
theorem pushStoresBelowStackPointer : Obligations.PushStoresBelowStackPointer := by
  intro a s
  refine ⟨rfl, fun hsp => ?overflow, fun hsp ha => ?badIndex, fun hsp ha => ?completed⟩
  case overflow => exact exec_of_raises (.inl ⟨hsp, rfl⟩)
  case badIndex => exact exec_of_raises (.inr ⟨hsp, ha, rfl⟩)
  case completed =>
    rw [← toNat_sub_one hsp]
    exact exec_push hsp ha

/-- Settles O28: the index is tested first, then what is incremented. -/
theorem popLoadsFromStackPointer : Obligations.PopLoadsFromStackPointer := by
  intro a s v base
  refine ⟨rfl, fun ha => ?badIndex, fun ha hbase => ?underflow, fun ha hbase => ?completed⟩
  case badIndex => exact exec_of_raises (.inl ⟨ha, rfl⟩)
  case underflow => exact exec_pop_underflow ha hbase
  case completed => exact exec_pop ha hbase

/-- Settles O29: PUSH reads register 7 after the decrement; POP loads register 7 before the increment. -/
theorem pushPopOfStackPointer : Obligations.PushPopOfStackPointer := by
  intro s hwf
  refine ⟨fun hsp => ⟨_, exec_push hsp (by decide), s.sp_pushed, ?slot⟩, fun hcell => ?pop, fun hcell => ?underflow⟩
  case slot =>
    rw [← toNat_sub_one hsp]
    exact (Memory.read_write hwf ..).trans (if_pos rfl)
  case pop =>
    have hbase : s.popBase 7 ≠ 255 := by
      rw [s.popBase_seven]
      bv_omega
    refine ⟨_, exec_pop (by decide) hbase, ?_⟩
    rw [State.setPc_sp, State.sp_setReg_spIndex, s.popBase_seven]
    bv_omega
  case underflow => exact exec_pop_underflow (by decide) (s.popBase_seven.trans hcell)

/-- Settles O34: SP below its old value is below 255, so the POP completes, and its increment undoes the decrement. -/
theorem popRestoresPushedValue : Obligations.PopRestoresPushedValue := by
  intro a b s t u ha hb hwf _ hpush ht husp hucell
  obtain ⟨hsp, htsp, htcell⟩ := push_leaves ha hwf (effect_of_running hpush ht)
  have hbase : u.popBase b = s.sp - 1 := by
    rw [u.popBase_of_ne (ne_seven_of_toNat_lt hb), husp, htsp]
  have hpop := exec_pop (s := u) (a := b) (by omega) (by rw [hbase]; bv_omega)
  rw [husp, hucell, htcell, hbase, BitVec.sub_add_cancel] at hpop
  exact hpop

end Sys2Proof.Machine
end

section
/-! CALL and RET as equations, register 7 as CALL's operand, and the return behind a CALL (R160 to R163). -/

namespace Sys2Proof.Machine

/-! ### The completed instructions -/

section
variable {a : Byte} {s t : State}

/-- The return address fits a cell when the CALL's slot is complete (R160). -/
theorem State.toNat_returnAddress (s : State) (hpc : s.pc ≤ 253) : s.returnAddress.toNat = s.pc + 2 := by
  rw [State.returnAddress, BitVec.toNat_ofNat, Nat.mod_eq_of_lt (by omega)]

theorem exec_call (hsp : s.sp ≠ 0) (ha : a.toNat < 8) :
    exec (.call a) s = .next ((s.pushed.setMem (s.mem.write (s.sp - 1).toNat s.returnAddress)).setPc
      (if a = 7 then s.sp - 1 else s.getReg ⟨a.toNat, ha⟩).toNat) :=
  exec_of_effect ⟨hsp, ha, by rw [s.getReg_pushed ha]⟩

theorem exec_ret (hsp : s.sp ≠ 255) :
    exec .ret s = .next ((s.setReg Config.spIndex (s.sp + 1)).setPc (s.mem.read s.sp.toNat).toNat) :=
  exec_of_effect ⟨hsp, rfl⟩

/-- A CALL that completes leaves SP below where it was and the return address there. -/
theorem call_leaves (hwf : s.mem.wf) (he : Effect (.call a) s t) :
    s.sp ≠ 0 ∧ t.sp = s.sp - 1 ∧ t.mem.read t.sp.toNat = s.returnAddress := by
  obtain ⟨hsp, _, rfl⟩ := he
  refine ⟨hsp, s.sp_pushed, ?_⟩
  rw [State.setPc_sp, State.setMem_sp, State.sp_pushed, State.setPc_mem, State.setMem_mem, Memory.read_write hwf,
    if_pos rfl]

end

/-! ### The statements -/

/-- Settles O30: SP is tested before the index; register 7 is read after the decrement. -/
theorem callPushesReturnAddressAndJumps : Obligations.CallPushesReturnAddressAndJumps := by
  intro a s
  refine ⟨rfl, fun hsp => ?overflow, fun hsp ha => ?badIndex,
    fun hpc hsp ha => ⟨_, s.toNat_returnAddress hpc, ?completed⟩⟩
  case overflow => exact exec_of_raises (.inl ⟨hsp, rfl⟩)
  case badIndex => exact exec_of_raises (.inr ⟨hsp, ha, rfl⟩)
  case completed =>
    rw [← toNat_sub_one hsp]
    exact exec_call hsp ha

/-- Settles O31: the decremented SP is both the address of the store and the jump's target. -/
theorem callOfStackPointerJumpsToReturnCell : Obligations.CallOfStackPointerJumpsToReturnCell := by
  intro s hwf hpc hsp
  rw [← toNat_sub_one hsp]
  refine ⟨_, exec_call hsp (by decide), s.sp_pushed, rfl, ?returnCell, fun addr hne => ?otherCell⟩
  case returnCell =>
    rw [State.setPc_mem, State.setMem_mem, Memory.read_write hwf, if_pos rfl, s.toNat_returnAddress hpc]
  case otherCell => rw [State.setPc_mem, State.setMem_mem, Memory.read_write hwf, if_neg hne.symm]

/-- Settles O32: SP is the only thing RET tests, and 255 the only value it cannot increment. -/
theorem retPopsProgramCounter : Obligations.RetPopsProgramCounter :=
  fun _ => ⟨rfl, fun hsp => exec_of_raises ⟨hsp, rfl⟩, exec_ret⟩

/-- Settles O33: SP below its old value is below 255, so the RET completes, and its increment undoes the decrement. -/
theorem retReturnsBehindItsCall : Obligations.RetReturnsBehindItsCall := by
  intro a s t u hwf hpc _ hcall ht husp hucell
  obtain ⟨hsp, htsp, htcell⟩ := call_leaves hwf (effect_of_running hcall ht)
  have hret := exec_ret (s := u) (by rw [husp, htsp]; bv_omega)
  rw [husp, hucell, htcell, htsp, BitVec.sub_add_cancel, s.toNat_returnAddress hpc] at hret
  exact hret

end Sys2Proof.Machine
end

section
/-! CMP and the three jumps as equations, the step that changes the flags, and the statements about comparing and jumping
(R170 to R175). -/

namespace Sys2Proof.Machine

/-! ### The completed instructions -/

section
variable {a b : Byte} {s t : State}

theorem exec_cmp (ha : a.toNat < 8) (hb : b.toNat < 8) :
    exec (.cmp a b) s = .next
      ((s.setFlags (compareFlags (s.getReg ⟨a.toNat, ha⟩) (s.getReg ⟨b.toNat, hb⟩))).setPc (s.pc + 3)) :=
  exec_of_effect ⟨ha, hb, _, rfl, rfl⟩

theorem exec_jmp (ha : a.toNat < 8) : exec (.jmp a) s = .next (s.setPc (s.getReg ⟨a.toNat, ha⟩).toNat) :=
  exec_of_effect ⟨ha, rfl⟩

theorem exec_jeq_taken (hfl : s.fl = .equal) (ha : a.toNat < 8) :
    exec (.jeq a) s = .next (s.setPc (s.getReg ⟨a.toNat, ha⟩).toNat) :=
  exec_of_effect ((if_pos hfl).mpr ⟨ha, rfl⟩)

theorem exec_jeq_not_taken (hfl : s.fl ≠ .equal) : exec (.jeq a) s = .next (s.setPc (s.pc + 2)) :=
  exec_of_effect ((if_neg hfl).mpr rfl)

theorem exec_jne_taken (hfl : s.fl ≠ .equal) (ha : a.toNat < 8) :
    exec (.jne a) s = .next (s.setPc (s.getReg ⟨a.toNat, ha⟩).toNat) :=
  exec_of_effect ((if_neg hfl).mpr ⟨ha, rfl⟩)

theorem exec_jne_not_taken (hfl : s.fl = .equal) : exec (.jne a) s = .next (s.setPc (s.pc + 2)) :=
  exec_of_effect ((if_pos hfl).mpr rfl)

/-! ### The flag state along steps and in the jumps (R171) -/

/-- A step that changes the flags completes a CMP: a stopped core, a fault and every other instruction leave them. -/
theorem step_changes_flags (h : step s = .next t) (hne : t.fl ≠ s.fl) :
    s.running = true ∧ ∃ a b, decodeSlot defaultOpc s.nextSlot = .ok (.cmp a b) ∧ Effect (.cmp a b) s t := by
  rcases step_cases h with ⟨_, rfl⟩ | ⟨_, k, _, rfl⟩ | ⟨hr, _, i, hd, he⟩
  case inl => exact absurd rfl hne
  case inr.inl => exact absurd rfl hne
  case inr.inr =>
    obtain ⟨a, b, rfl, _⟩ := (effect_frame he).fl.resolve_left hne
    exact ⟨hr, a, b, hd, he⟩

/-- An instruction other than CMP does the same in every flag state that is not Equal, and leaves that flag state. -/
theorem exec_setFlags_of_ne_equal {i : Instr} {f : Flags} (hi : ∀ a b, i ≠ .cmp a b) (hs : s.fl ≠ .equal)
    (hf : f ≠ .equal) (h : exec i s = .next t) : exec i (s.setFlags f) = .next (t.setFlags f) :=
  exec_passesThrough (passesThrough_setFlags (fun a b hab => absurd hab (hi a b)) f)
    (readsAlike_setFlags (.inr (iff_of_false hs hf))) h

end

/-! ### The statements -/

/-- Settles O36: CMP is the ALU handler, and with valid indices it writes the ALU's comparison to the flags. -/
theorem cmpSetsOneFlag : Obligations.CmpSetsOneFlag :=
  fun a b s => ⟨rfl, exec_cmp, settle_aluHandler_index_faults .cmp a b s⟩

/-- Settles O37: the index is the only thing JMP tests. -/
theorem jmpLoadsProgramCounter : Obligations.JmpLoadsProgramCounter :=
  fun _ _ => ⟨rfl, exec_jmp, fun ha => exec_of_raises ⟨ha, rfl⟩⟩

/-- Settles O38: the flag is tested first, and the index only on the taken side. -/
theorem jeqJumpsIfEqual : Obligations.JeqJumpsIfEqual :=
  fun _ _ => ⟨rfl, exec_jeq_taken, fun hfl ha => exec_of_raises ⟨hfl, ha, rfl⟩, exec_jeq_not_taken⟩

/-- Settles O39: the flag is tested first, and the index only on the taken side, which no flag set is on too. -/
theorem jneJumpsIfNotEqual : Obligations.JneJumpsIfNotEqual :=
  fun _ _ => ⟨rfl, exec_jne_taken, fun hfl ha => exec_of_raises ⟨hfl, ha, rfl⟩, exec_jne_not_taken⟩

/-- Settles O50: only a completed CMP writes the flags, and a comparison is never `none`; JEQ and JNE do not see a change
between the flag states that are not Equal. -/
theorem flagStateMachine : Obligations.FlagStateMachine := by
  refine ⟨fun a b ha hb s f => ?completedCmp, fun i s t hi h => exec_fl_unchanged h hi, fun s t h hne => ?changed,
    fun image s t h => ?load, fun _ _ => rfl, fun a s t i hi h => ?lessAsGreater⟩
  case completedCmp => exact ⟨_, exec_cmp ha hb, rfl⟩
  case changed =>
    obtain ⟨hr, a, b, hd, he⟩ := step_changes_flags h hne
    obtain ⟨_, _, rfl⟩ := aluEffect_cmp he
    exact ⟨compareFlags_ne_none _ _, hr, hr, a, b, hd⟩
  case load =>
    obtain ⟨_, rfl⟩ := hostLoad_ok h
    rfl
  case lessAsGreater =>
    have hcmp (c d : Byte) : i ≠ .cmp c d := by
      simp only [List.mem_cons, List.not_mem_nil, or_false] at hi
      rcases hi with rfl | rfl <;> simp
    exact exec_setFlags_of_ne_equal (s := s.setFlags .less) hcmp (by simp) (by simp) h

end Sys2Proof.Machine
end

section
/-! Which faults a step brings under any Instruction Table, what a step that stops the core leaves, and the statements about
the exceptions (R200 to R208). -/

namespace Sys2Proof.Machine

/-! ### The faults of a step -/

section
variable {opc : OpcodeMap} {s t : State}

/-- The fault a step of a running core can take: that of the fetch, that of the lookup, or one of the decoded
instruction (R206, R203, R205). -/
def StepFault (opc : OpcodeMap) (s : State) (k : Fault) : Prop :=
  (254 ≤ s.pc ∧ k = .addressOutOfRange (if s.pc ≤ 256 then 256 else s.pc)) ∨
  (s.pc ≤ 253 ∧ lookupOpcode opc (s.mem.read s.pc) = none ∧ k = .unknownOpcode (s.mem.read s.pc) s.pc) ∨
  (s.pc ≤ 253 ∧ ∃ i, decodeSlot opc s.nextSlot = .ok i ∧ InstrFault i k)

/-- What a step can do under any Instruction Table: nothing in a stopped core; in a running one it takes a fault or
completes the instruction of a complete slot. -/
theorem engineStep_fault_or_effect (h : engineStep opc s = .next t) :
    (s.running = false ∧ t = s) ∨
    (s.running = true ∧ ∃ k, StepFault opc s k ∧ t = s.enterFault k) ∨
    (s.running = true ∧ s.pc ≤ 253 ∧ ∃ i, decodeSlot opc s.nextSlot = .ok i ∧ Effect i s t) := by
  rcases engineStep_cases h with hstop | ⟨hr, hpc, rfl⟩ | ⟨hr, hpc, hrow, rfl⟩ | ⟨hr, hpc, i, hd, hx⟩
  · exact .inl hstop
  · exact .inr (.inl ⟨hr, _, .inl ⟨hpc, rfl⟩, rfl⟩)
  · exact .inr (.inl ⟨hr, _, .inr (.inl ⟨hpc, hrow, rfl⟩), rfl⟩)
  · rcases exec_cases hx with ⟨k, hk, rfl⟩ | he
    · exact .inr (.inl ⟨hr, k, .inr (.inr ⟨hpc, i, hd, hk⟩), rfl⟩)
    · exact .inr (.inr ⟨hr, hpc, i, hd, he⟩)

/-- A fault that a step finds nowhere before it is one the step takes (R30). -/
theorem stepFault_of_engineStep {k : Fault} (h : engineStep opc s = .next t) (hs : s.fault ≠ some k)
    (ht : t.fault = some k) : StepFault opc s k := by
  rcases engineStep_fault_or_effect h with ⟨_, rfl⟩ | ⟨_, k', hk, rfl⟩ | ⟨_, _, i, _, he⟩
  · exact absurd ht hs
  · exact Option.some.inj ht ▸ hk
  · exact absurd ((effect_fault he).symm.trans ht) hs

/-- No fetch, no lookup and no instruction raises UnsupportedAluOperation (R131, R204). -/
theorem not_stepFault_unsupportedAluOperation (op : AluTag) : ¬ StepFault opc s (.unsupportedAluOperation op) := by
  rintro (⟨_, hk⟩ | ⟨_, _, hk⟩ | ⟨_, i, _, hk⟩)
  · cases hk
  · cases hk
  · cases leftByStep_of_instrFault hk

theorem mem_operands_of_mem_registerOperands {i : Instr} {c : Byte} (h : c ∈ i.registerOperands) : c ∈ i.operands := by
  cases i with
  | ldi a imm => exact List.mem_cons.2 (.inl (List.mem_singleton.1 h))
  | _ => exact h

/-- The register operands of a decoded instruction are cells of its slot (R70, R77). -/
theorem registerOperand_in_slot {slot : Slot} {i : Instr} {c : Byte} (hd : decodeSlot opc slot = .ok i)
    (hc : c ∈ i.registerOperands) : c = slot.a ∨ c = slot.b := by
  obtain ⟨_, hops⟩ := decodeSlot_eq_ok.1 hd
  simpa using hops.subset (mem_operands_of_mem_registerOperands hc)

/-- A slot whose opcode cell has no row faults with that cell and the slot's address (R203). -/
theorem engineStep_of_illegal_opcode (hr : s.running = true) (hpc : s.pc ≤ 253) (h : ∀ m, opc m ≠ s.mem.read s.pc) :
    engineStep opc s = .next (s.enterFault (.unknownOpcode (s.mem.read s.pc) s.pc)) :=
  engineStep_of_unknownOpcode hr hpc (decodeSlot_eq_error.2 (lookupOpcode_eq_none.2 h))

end

/-! ### The statements -/

/-- Settles O9: the first failing test is the fault, of the pass and of each instruction. -/
theorem firstFailingTestIsReported : Obligations.FirstFailingTestIsReported := by
  refine ⟨fun _ _ => engineStep_fetch_error_256, fun _ _ => engineStep_of_illegal_opcode, fun a s hsp => ⟨?push, ?call⟩,
    fun a s ha => ?pop, fun a b s ha => ?indexA, fun a b s ha hb => ?divIndexB⟩
  case push => exact exec_of_raises (.inl ⟨hsp, rfl⟩)
  case call => exact exec_of_raises (.inl ⟨hsp, rfl⟩)
  case pop => exact exec_of_raises (.inl ⟨ha, rfl⟩)
  case indexA =>
    have halu (op : AluTag) := (settle_aluHandler_index_faults op a b s).1 ha
    simp only [List.forall_mem_cons, List.not_mem_nil, false_imp_iff, implies_true, and_true]
    exact ⟨halu .mul, halu .add, halu .sub, halu .div, halu .cmp⟩
  case divIndexB => exact (settle_aluHandler_index_faults .div a b s).2 ha hb

/-- Settles O11: a running core is stopped by the entry of a fault, which leaves one, or by HLT in a complete slot. -/
theorem stoppingStepChangesOnlyStatus : Obligations.StoppingStepChangesOnlyStatus := by
  intro opc s t hr h ht
  rcases engineStep_fault_or_effect h with ⟨hstop, _⟩ | ⟨_, k, _, rfl⟩ | ⟨_, hpc, i, hd, he⟩
  · cases hr.symm.trans hstop
  · exact ⟨rfl, fun hnone => by cases hnone⟩
  · rcases effect_status he with ⟨rfl, rfl⟩ | ⟨hrun, _⟩
    · exact ⟨rfl, fun _ => ⟨hpc, (opcode_of_decodeSlot hd).symm⟩⟩
    · cases ht.symm.trans (hrun.trans hr)

/-- Settles O21: a fault that a step brings is one of its own, and none of these is UnsupportedAluOperation. -/
theorem unsupportedAluOperationIsUnreachable : Obligations.UnsupportedAluOperationIsUnreachable :=
  ⟨fun _ _ _ => rfl, fun _ _ _ op hs h ht =>
    not_stepFault_unsupportedAluOperation op (stepFault_of_engineStep h hs ht)⟩

/-- Settles O52: the fetch reports 256, a stack-pointer result is -1 or 256, and an index fault carries a register operand,
which is a cell of the slot. -/
theorem outOfRangePayloads : Obligations.OutOfRangePayloads := by
  intro s t n hpc _ hs h ht
  rcases stepFault_of_engineStep h (by simp [hs]) ht with ⟨_, hk⟩ | ⟨_, _, hk⟩ | ⟨_, i, hd, hk⟩
  case inl => exact .inr (.inl ((Fault.addressOutOfRange.inj hk).trans (if_pos hpc)))
  case inr.inl => cases hk
  case inr.inr =>
    rcases hk with hk | hk | hk | ⟨c, hc, h8, hk⟩
    · cases hk
    · exact .inl (Fault.addressOutOfRange.inj hk)
    · exact .inr (.inl (Fault.addressOutOfRange.inj hk))
    · obtain rfl := Fault.addressOutOfRange.inj hk
      have h255 := byte_le_255 c
      refine .inr (.inr ⟨by omega, by omega, ?_⟩)
      rcases registerOperand_in_slot hd hc with rfl | rfl
      · exact .inl rfl
      · exact .inr rfl

/-- Settles O8: the lookup finds no row. -/
theorem unknownOpcodeFaults : Obligations.UnknownOpcodeFaults := fun _ _ => engineStep_of_illegal_opcode

/-- Settles O58: one row of the code table for each fault kind. -/
theorem faultCodesFollowTheTable : Obligations.FaultCodesFollowTheTable :=
  ⟨rfl, fun _ _ => rfl, fun _ => rfl, rfl, fun _ => rfl, fun _ => rfl⟩

end Sys2Proof.Machine
end

section
/-! The equations of the host operations, and the statements about reset, load, step, run, trace and the endless loop
(R230 to R242). -/

namespace Sys2Proof.Machine

/-! ### Reset (R37, R230) -/

/-- Of the registers after reset only SP is not 0 (R37). -/
theorem State.getReg_resetWith (fl : Flags) (r : Fin 8) :
    (State.resetWith fl).getReg r = if r = Config.spIndex then Config.spInit else 0 := by
  change (#v[0, 0, 0, 0, 0, 0, 0, Config.spInit] : Vector Byte 8)[r.val] = _
  revert r
  decide

/-! ### Load (R232) -/

section
variable {m : Memory} {base : Nat} {image : List Byte}

/-- `load` writes no cell below its base and none behind the image. -/
theorem Memory.read_loadCells_outside {addr : Nat} (hm : m.wf) (hfits : base + image.length ≤ 256)
    (hout : addr < base ∨ base + image.length ≤ addr) : (loadCells m base image).read addr = m.read addr := by
  induction image generalizing m base with
  | nil => rfl
  | cons v rest ih =>
    simp only [List.length_cons] at hfits hout
    have hwf : (m.write base v).wf := Memory.wf_write hm (by omega)
    rw [loadCells, ih hwf (by omega) (by omega), Memory.read_write hm, if_neg (by omega)]

/-- Cell `i` of the image lands `i` cells behind the base: the later writes go to higher addresses and leave it. -/
theorem Memory.read_loadCells_inside {i : Nat} (hm : m.wf) (hfits : base + image.length ≤ 256)
    (hi : i < image.length) : (loadCells m base image).read (base + i) = image[i] := by
  induction image generalizing m base i with
  | nil => cases hi
  | cons v rest ih =>
    simp only [List.length_cons] at hfits hi
    have hwf : (m.write base v).wf := Memory.wf_write hm (by omega)
    rw [loadCells]
    cases i with
    | zero => rw [Memory.read_loadCells_outside hwf (by omega) (by omega), Memory.read_write hm]; exact if_pos rfl
    | succ i =>
      rw [← Nat.add_assoc, Nat.add_right_comm]
      exact ih hwf (by omega) (Nat.lt_of_succ_lt_succ hi)

end

theorem hostLoad_of_fits {image : List Byte} (s : State) (h : image.length ≤ 256) :
    hostLoad image s = .ok (s.setMem (loadCells s.mem 0 image)) :=
  if_neg (Nat.not_lt.2 h)

theorem hostLoad_of_tooLarge {image : List Byte} (s : State) (h : 256 < image.length) :
    hostLoad image s = .error (.programLoadError .imageTooLarge) :=
  if_pos h

/-! ### Step, run and the report (R30, R233, R234) -/

section
variable {s t : State}

theorem report_of_running (hr : s.running = true) : s.report = .next := if_pos hr

theorem report_of_halted (hr : s.running = false) (hf : s.fault = none) : s.report = .halted := by
  simp [State.report, hr, hf]

theorem report_of_faulted {k : Fault} (hr : s.running = false) (hf : s.fault = some k) : s.report = .fault k := by
  simp [State.report, hr, hf]

theorem hostStep_of_step (h : step s = .next t) : hostStep s = .next (t.report, t) := by rw [hostStep, h]

theorem hostRun_of_stopped (hr : s.running = false) (n : Nat) : hostRun n s = .next (s.report, s) := by
  cases n <;> simp [hostRun, hr]

theorem hostRun_succ_of_step (hr : s.running = true) (h : step s = .next t) (n : Nat) :
    hostRun (n + 1) s = hostRun n t := by
  simp [hostRun, hr, h]

theorem run_succ_of_step {M : Host.Core} {s t : M.State} (h : M.step s = .next t) (n : Nat) :
    M.run (n + 1) s = M.run n t := by
  rw [Host.Core.run, h]

/-- `run` with fuel `n` is `n` steps: it stops early only where the steps change nothing more. -/
theorem hostRun_of_run {n : Nat} (h : Host.Core.run core n s = .next t) : hostRun n s = .next (t.report, t) := by
  induction n generalizing s with
  | zero => cases h; rfl
  | succ n ih =>
    cases hr : s.running with
    | false =>
      have hst : Host.Outcome.next s = .next t := (run_of_stopped hr _).symm.trans h
      cases hst
      exact hostRun_of_stopped hr _
    | true =>
      obtain ⟨u, hu⟩ := engineStep_answers_next defaultOpc s
      rw [hostRun_succ_of_step hr hu]
      exact ih ((run_succ_of_step (M := core) hu n).symm.trans h)

end

/-! ### Trace (R235) -/

section
variable {s : State} {addr : Nat}

theorem State.traceCell_present (h : addr < 256) : s.traceCell addr = some (s.mem.read addr) := if_pos h

theorem State.traceCell_absent (h : 256 ≤ addr) : s.traceCell addr = none := if_neg (Nat.not_lt.2 h)

end

/-! ### The endless loop (R242) -/

/-- A slot that begins with a row's opcode decodes to what the row builds (R75). -/
theorem decodeSlot_of_opcode {slot : Slot} {m : Mnemonic} (h : slot.ir = defaultOpc m) :
    decodeSlot defaultOpc slot = .ok (m.build slot.a slot.b) := by
  rw [decodeSlot, h, lookupOpcode_opc defaultOpc_injective]

theorem step_of_jmp {s : State} (hr : s.running = true) (hpc : s.pc ≤ 253) (hir : s.mem.read s.pc = 0x54)
    (ha : (s.mem.read (s.pc + 1)).toNat < 8) :
    step s = .next (s.setPc (s.getReg ⟨(s.mem.read (s.pc + 1)).toNat, ha⟩).toNat) :=
  (engineStep_of_decoded hr hpc (decodeSlot_of_opcode (m := .jmp) hir)).trans (exec_jmp ha)

/-! ### The statements -/

/-- Settles O40: the JMP sets `pc` to the value it has, so the step answers the state itself. -/
theorem jumpToItselfNeverEnds : Obligations.JumpToItselfNeverEnds := by
  intro s ha hr hpc hir hself n
  have hstep : step s = .next s := by rw [step_of_jmp hr hpc hir ha, hself]; rfl
  exact run_of_step_self (M := core) hstep n

/-- Settles O54: the image's writes from base 0. -/
theorem loadWritesImageOrRefusesIt : Obligations.LoadWritesImageOrRefusesIt := by
  refine fun image s hm => ⟨fun hlen => ?_, hostLoad_of_tooLarge s⟩
  have hfits : 0 + image.length ≤ 256 := by omega
  refine ⟨_, hostLoad_of_fits s hlen, fun i hi => ?_, fun i hi => ?_⟩
  · simpa only [Nat.zero_add] using Memory.read_loadCells_inside hm hfits hi
  · exact Memory.read_loadCells_outside hm hfits (.inr (by omega))

/-- Settles O55: `run` as the sequence of steps, and the stopped core as a fixed point of all three. -/
theorem hostRunIsSequenceOfSteps : Obligations.HostRunIsSequenceOfSteps :=
  ⟨fun _ _ => hostStep_of_step, fun _ _ _ => hostRun_of_run,
    fun n _ hr => ⟨step_of_stopped hr, hostStep_of_step (step_of_stopped hr), hostRun_of_stopped hr n,
      report_of_halted hr, fun _ => report_of_faulted hr⟩,
    fun _ => report_of_running⟩

/-- Settles O57: how many of the three addresses are below 256 decides how many cells are shown. -/
theorem traceShowsSlotAndRegisters : Obligations.TraceShowsSlotAndRegisters := by
  refine fun s => ⟨rfl, rfl, fun hpc => ?_, fun hpc => ?_, fun hpc => ?_, fun hpc => ?_⟩
  · exact ⟨State.traceCell_present (by omega), State.traceCell_present (by omega), State.traceCell_present (by omega)⟩
  · simp only [State.trace, hpc]
    exact ⟨State.traceCell_present (by decide), State.traceCell_present (by decide), State.traceCell_absent (by decide)⟩
  · simp only [State.trace, hpc]
    exact ⟨State.traceCell_present (by decide), State.traceCell_absent (by decide), State.traceCell_absent (by decide)⟩
  · exact ⟨State.traceCell_absent hpc, State.traceCell_absent (by omega), State.traceCell_absent (by omega)⟩

/-- Settles O12: the registers by their one lemma, every other value as `reset` writes it. -/
theorem resetLeavesResetValues : Obligations.ResetLeavesResetValues := fun fl _ =>
  ⟨fun _ _ => rfl, fun r hr => (State.getReg_resetWith fl r).trans (if_neg hr), State.getReg_resetWith fl 7, rfl, rfl,
    rfl, rfl, rfl⟩

end Sys2Proof.Machine
end
